-- ==== Sys2Proof/Word.lean ====
section
/-! DEFINITION. Word.lean: the widths of the block (00_scope.md R13) and the names of its fault codes
(60_exceptions.md R200). Bits are numbered from 0 at the least significant end (R14). -/

namespace Sys2Proof

/-- One byte of the state array S (20_memory.md R50). -/
abbrev Byte := BitVec 8

/-- One half of an interleaved lane, 32 bits (10_state.md R38). -/
abbrev Half := BitVec 32

/-- An operand, a result, or one lane of the state: 64 bits (R13, R23). -/
abbrev Word := BitVec 64

/-- A command word: 32 bits (30_encoding.md R71). -/
abbrev CmdWord := BitVec 32

/-- The immediate field of a command word: an unsigned 8-bit number (30_encoding.md R72). -/
abbrev Imm := BitVec 8

/-- The named codes of FCODE (R200). The check functions of R211 answer `none` where the spec writes 0. -/
inductive FaultCode where
  | none | illegalOp | rsvNonzero | badImm | badOutlen
  | absorbPhase | finalPhase | squeezePhase | digestPhase | rawPhase
  deriving DecidableEq, Repr

/-- What the host presents in one transaction: the command word and the operand words A and B (R70). -/
structure Transaction where
  cmd : CmdWord
  a   : Word
  b   : Word
  deriving DecidableEq, Repr

/-- What the block answers to one transaction: the acceptance bit and the result word (R70). -/
structure Response where
  ok : Bool
  rd : Word
  deriving DecidableEq, Repr

end Sys2Proof
end

