-- ==== Sys2Proof/Config.lean ====
section
/-! DEFINITION. Config.lean: what is fixed when an instance is built (00_scope.md R10, R11). The spec leaves no
value free (93_implementation_defined.md: every row is fixed, faulted, refused, unobservable or the parameter
DATAPATH), so there is no free value here. -/

namespace Sys2Proof.Config

/-- The parameter DATAPATH (R11, 92_eei_decisions.md D25): a 64-bit lane datapath (R130) or a 32-bit
bit-interleaved one (R131). Which one an instance has is a field of State, so that the model takes it as an argument. -/
inductive Datapath where
  | w64 | w32i
  deriving DecidableEq, Repr

/-- The size of the state array S in bytes (R10, R22). -/
abbrev stateBytes : Nat := 200

/-- The number of 64-bit lanes of the state (R10, R23). -/
abbrev laneCount : Nat := 25

/-- The number of rounds of one permutation (R10, R127). -/
abbrev roundCount : Nat := 24

/-- What a byte of S that the memory list does not name reads as: the reset value of every byte of S (R22, R230). -/
abbrev blankByte : Byte := 0

end Sys2Proof.Config
end

