-- ==== Sys2Proof/Syntax.lean ====
section
/-! DEFINITION. Syntax.lean: the 21 commands of 30_encoding.md R74, one constructor for each row of
spec/opcode_table.json. A command is its word and the operand words (R71), so a constructor carries the immediate
where the opcode interprets one (R72) and those operand words that the opcode reads (the "reads" column of R74);
an operand word it does not read is no part of the instruction (R76). -/

namespace Sys2Proof

inductive Instr where
  /-- 0x00 NOP (R180). -/
  | nop
  /-- 0x01 INIT outLen (R150). -/
  | init (outLen : Imm)
  /-- 0x02 ABSORB n, A (R152). -/
  | absorb (n : Imm) (a : Word)
  /-- 0x03 FINAL (R153). -/
  | final
  /-- 0x04 XOF (R154). -/
  | xof
  /-- 0x05 SQUEEZE n (R156). -/
  | squeeze (n : Imm)
  /-- 0x06 DIGEST k (R158). -/
  | digest (k : Imm)
  /-- 0x07 DISCARD (R157). -/
  | discard
  /-- 0x10 WRLANE i, A (R135). -/
  | wrlane (i : Imm) (a : Word)
  /-- 0x11 RDLANE i (R136). -/
  | rdlane (i : Imm)
  /-- 0x12 PERMUTE (R137). -/
  | permute
  /-- 0x20 ROR32 n, A (R100). -/
  | ror32 (n : Imm) (a : Word)
  /-- 0x21 ROR64 n, A (R101). -/
  | ror64 (n : Imm) (a : Word)
  /-- 0x22 ANDN A, B (R102). -/
  | andn (a b : Word)
  /-- 0x23 INTLV A (R103). -/
  | intlv (a : Word)
  /-- 0x24 DINTLV A (R104). -/
  | dintlv (a : Word)
  /-- 0x25 IROL n, A (R105). -/
  | irol (n : Imm) (a : Word)
  /-- 0x30 RDSTAT (R181). -/
  | rdstat
  /-- 0x31 RDID (R184). -/
  | rdid
  /-- 0x32 RDCNT (R182). -/
  | rdcnt
  /-- 0x33 RDFAULT (R183). -/
  | rdfault
  deriving DecidableEq, Repr

end Sys2Proof
end

