-- ==== Sys2Proof/WellFormed.lean ====
section
/-! DEFINITION. WellFormed.lean: the immediates each opcode admits (the "IMM legal values" column of 30_encoding.md
R74). DIGEST's second condition, 8*IMM < OUTLEN, depends on the state and is a check of the machine (R211 step 5). -/

namespace Sys2Proof

/-- The supported outputLen values (00_scope.md R12). -/
def supportedOutLens : List Imm := [16, 28, 32, 48, 64]

/-- An instruction whose immediate is legal for its opcode. A constructor without an immediate encodes IMM = 0,
the one value legal for it; ROR32, ROR64 and IROL accept every immediate. -/
def Instr.wf : Instr → Bool
  | .init outLen => supportedOutLens.contains outLen
  | .absorb n _ => decide (n.toNat ≤ 8)
  | .squeeze n => decide (n.toNat ≤ 8)
  | .digest k => decide (k.toNat ≤ 7)
  | .wrlane i _ => decide (i.toNat ≤ 24)
  | .rdlane i => decide (i.toNat ≤ 24)
  | .ror32 _ _ => true
  | .ror64 _ _ => true
  | .irol _ _ => true
  | .nop => true
  | .final => true
  | .xof => true
  | .discard => true
  | .permute => true
  | .andn _ _ => true
  | .intlv _ => true
  | .dintlv _ => true
  | .rdstat => true
  | .rdid => true
  | .rdcnt => true
  | .rdfault => true

end Sys2Proof
end

