-- ==== Sys2Proof/Decode.lean ====
section
/-! DEFINITION. Decode.lean: from a transaction to an instruction or a named fault code (30_encoding.md R71 to R76,
the static checks 1 to 3 of 60_exceptions.md R211), and back. -/

namespace Sys2Proof

/-- The assigned opcodes, by their mnemonics (R74). -/
inductive Op where
  | nop | init | absorb | final | xof | squeeze | digest | discard
  | wrlane | rdlane | permute
  | ror32 | ror64 | andn | intlv | dintlv | irol
  | rdstat | rdid | rdcnt | rdfault
  deriving DecidableEq, Repr

/-! ## The fields of the command word (R71) -/

def CmdWord.op (cmd : CmdWord) : BitVec 8 := cmd.extractLsb' 24 8
def CmdWord.rsv (cmd : CmdWord) : BitVec 16 := cmd.extractLsb' 8 16
def CmdWord.imm (cmd : CmdWord) : Imm := cmd.extractLsb' 0 8

/-! ## Decoding -/

/-- The opcode map of R74; every other value is reserved (R75). -/
def Op.ofCode (c : BitVec 8) : Option Op :=
  match c with
  | 0x00#8 => some .nop
  | 0x01#8 => some .init
  | 0x02#8 => some .absorb
  | 0x03#8 => some .final
  | 0x04#8 => some .xof
  | 0x05#8 => some .squeeze
  | 0x06#8 => some .digest
  | 0x07#8 => some .discard
  | 0x10#8 => some .wrlane
  | 0x11#8 => some .rdlane
  | 0x12#8 => some .permute
  | 0x20#8 => some .ror32
  | 0x21#8 => some .ror64
  | 0x22#8 => some .andn
  | 0x23#8 => some .intlv
  | 0x24#8 => some .dintlv
  | 0x25#8 => some .irol
  | 0x30#8 => some .rdstat
  | 0x31#8 => some .rdid
  | 0x32#8 => some .rdcnt
  | 0x33#8 => some .rdfault
  | _ => none

/-- The code of a failed immediate check, `none` where the check passes. -/
def codeUnless (legal : Bool) (f : FaultCode) : FaultCode := if legal then .none else f

/-- Step 3 of R211: the static check of the immediate (R203, R204). -/
def immCheck (op : Op) (imm : Imm) : FaultCode :=
  match op with
  | .init => codeUnless (imm == 16 || imm == 28 || imm == 32 || imm == 48 || imm == 64) .badOutlen
  | .nop | .final | .xof | .discard | .permute | .andn | .intlv | .dintlv
  | .rdstat | .rdid | .rdcnt | .rdfault => codeUnless (imm == 0) .badImm
  | .absorb | .squeeze => codeUnless (decide (imm.toNat ≤ 8)) .badImm
  | .digest => codeUnless (decide (imm.toNat ≤ 7)) .badImm
  | .wrlane | .rdlane => codeUnless (decide (imm.toNat ≤ 24)) .badImm
  | .ror32 | .ror64 | .irol => .none

/-- StaticCheck of R211, steps 1 to 3 in that order: it depends on the command word only. -/
def staticCheck (cmd : CmdWord) : FaultCode :=
  match Op.ofCode cmd.op with
  | none => .illegalOp
  | some op => if cmd.rsv = 0 then immCheck op cmd.imm else .rsvNonzero

/-- The instruction an opcode, an immediate and the two operand words stand for (R72 and the "reads" column of R74):
an operand word the opcode does not read is dropped (R76). -/
def Op.instr (op : Op) (imm : Imm) (a b : Word) : Instr :=
  match op with
  | .nop => .nop
  | .init => .init imm
  | .absorb => .absorb imm a
  | .final => .final
  | .xof => .xof
  | .squeeze => .squeeze imm
  | .digest => .digest imm
  | .discard => .discard
  | .wrlane => .wrlane imm a
  | .rdlane => .rdlane imm
  | .permute => .permute
  | .ror32 => .ror32 imm a
  | .ror64 => .ror64 imm a
  | .andn => .andn a b
  | .intlv => .intlv a
  | .dintlv => .dintlv a
  | .irol => .irol imm a
  | .rdstat => .rdstat
  | .rdid => .rdid
  | .rdcnt => .rdcnt
  | .rdfault => .rdfault

/-- Decoding, total on every transaction (R79): the instruction, or the static fault code that names why there is none. -/
def decode (t : Transaction) : Except FaultCode Instr :=
  match Op.ofCode t.cmd.op with
  | none => .error .illegalOp
  | some op =>
    match staticCheck t.cmd with
    | .none => .ok (op.instr t.cmd.imm t.a t.b)
    | f => .error f

/-! ## Encoding -/

/-- The opcode of an instruction. -/
def Instr.op : Instr → Op
  | .nop => .nop
  | .init _ => .init
  | .absorb _ _ => .absorb
  | .final => .final
  | .xof => .xof
  | .squeeze _ => .squeeze
  | .digest _ => .digest
  | .discard => .discard
  | .wrlane _ _ => .wrlane
  | .rdlane _ => .rdlane
  | .permute => .permute
  | .ror32 _ _ => .ror32
  | .ror64 _ _ => .ror64
  | .andn _ _ => .andn
  | .intlv _ => .intlv
  | .dintlv _ => .dintlv
  | .irol _ _ => .irol
  | .rdstat => .rdstat
  | .rdid => .rdid
  | .rdcnt => .rdcnt
  | .rdfault => .rdfault

/-- The immediate of an instruction, 0 where the opcode interprets none (R72). -/
def Instr.imm : Instr → Imm
  | .init n => n
  | .absorb n _ => n
  | .squeeze n => n
  | .digest k => k
  | .wrlane i _ => i
  | .rdlane i => i
  | .ror32 n _ => n
  | .ror64 n _ => n
  | .irol n _ => n
  | .nop | .final | .xof | .discard | .permute | .andn _ _ | .intlv _ | .dintlv _
  | .rdstat | .rdid | .rdcnt | .rdfault => 0

/-- The operand word A of an instruction, 0 where it reads none (R80: an omitted operand means 0). -/
def Instr.operandA : Instr → Word
  | .absorb _ a => a
  | .wrlane _ a => a
  | .ror32 _ a => a
  | .ror64 _ a => a
  | .andn a _ => a
  | .intlv a => a
  | .dintlv a => a
  | .irol _ a => a
  | .nop | .init _ | .final | .xof | .squeeze _ | .digest _ | .discard | .rdlane _ | .permute
  | .rdstat | .rdid | .rdcnt | .rdfault => 0

/-- The operand word B of an instruction: ANDN alone reads one (R74). -/
def Instr.operandB : Instr → Word
  | .andn _ b => b
  | .nop | .init _ | .absorb _ _ | .final | .xof | .squeeze _ | .digest _ | .discard
  | .wrlane _ _ | .rdlane _ | .permute | .ror32 _ _ | .ror64 _ _ | .intlv _ | .dintlv _ | .irol _ _
  | .rdstat | .rdid | .rdcnt | .rdfault => 0

/-- The number R74 gives each mnemonic. -/
def Op.code : Op → BitVec 8
  | .nop => 0x00
  | .init => 0x01
  | .absorb => 0x02
  | .final => 0x03
  | .xof => 0x04
  | .squeeze => 0x05
  | .digest => 0x06
  | .discard => 0x07
  | .wrlane => 0x10
  | .rdlane => 0x11
  | .permute => 0x12
  | .ror32 => 0x20
  | .ror64 => 0x21
  | .andn => 0x22
  | .intlv => 0x23
  | .dintlv => 0x24
  | .irol => 0x25
  | .rdstat => 0x30
  | .rdid => 0x31
  | .rdcnt => 0x32
  | .rdfault => 0x33

/-- The command word `OP << 24 | imm`, its reserved field zero (R71, R73, R80). -/
def Instr.cmdWord (i : Instr) : CmdWord := i.op.code ++ (0 : BitVec 16) ++ i.imm

/-- The words of a well-formed instruction. -/
def encode (i : Instr) : Transaction := ⟨i.cmdWord, i.operandA, i.operandB⟩

/-! ## Words numbered as spec/opcode_table.json numbers them -/

/-- The transaction whose bits are the low `nbits` bits of `w`, every bit above them 0: the command word is bits
31:0, operand A the next 64 bits and operand B the 64 after them. -/
def transactionOfBits (nbits w : Nat) : Transaction :=
  let v := w % 2 ^ nbits
  ⟨BitVec.ofNat 32 v, BitVec.ofNat 64 (v / 2 ^ 32), BitVec.ofNat 64 (v / 2 ^ 96)⟩

/-- What `decode` reads from a word of the opcode table. -/
def decodeTableWord (nbits w : Nat) : Option Instr :=
  match decode (transactionOfBits nbits w) with
  | .ok i => some i
  | .error _ => none

end Sys2Proof
end

