-- ==== Sys2Proof/Machine/State.lean ====
section
/-! DEFINITION. Machine/State.lean: every piece of state of 10_state.md, the commands the host has still to present
and the responses already given (70_reset_and_hazards.md R246, R247), and the state after reset (R230). -/

namespace Sys2Proof.Machine

/-! ## The state array S -/

/-- The state array S (R22): the bytes that differ from the blank byte, addresses strictly rising. -/
abbrev Memory := List Host.Cell

/-- The canonical form: every address is one of S's 200 (R50), addresses strictly rise, and no entry equals what an
unlisted address reads as; so equal arrays are equal lists. -/
def Memory.wf : Memory → Bool
  | [] => true
  | c :: m =>
    decide (c.1 < Config.stateBytes) && !(c.2 == Config.blankByte) && m.all (fun d => decide (c.1 < d.1)) &&
      Memory.wf m

/-! ## Named register values -/

/-- The values of PHASE that are ever written (R24); their 3-bit codes are `Phase.code` in Machine/Flags.lean. -/
inductive Phase where
  | idle | absorbing | final | squeezing
  deriving DecidableEq, Repr

/-- The values of DOMAIN that are ever written (R28); their 2-bit codes are `Domain.code` in Machine/Flags.lean. -/
inductive Domain where
  | none | fixed | xof
  deriving DecidableEq, Repr

/-! ## The host's side of the port -/

/-- What the host can do to the block (R246): issue a command, apply reset, or apply reset to a command that has not
returned its response (R233). -/
inductive HostEvent where
  | issue (t : Transaction)
  | reset
  | cutByReset (t : Transaction)
  deriving DecidableEq, Repr

/-! ## The state -/

/-- The block's state, field by field as 10_state.md names it, and the two lists of the port. -/
structure State where
  /-- S, 200 bytes (R22). -/
  mem       : Memory
  /-- PHASE (R24). -/
  phase     : Phase
  /-- POS, the absorbed-position (R25). -/
  pos       : BitVec 8
  /-- RATE (R26). -/
  rate      : BitVec 8
  /-- OUTLEN (R27). -/
  outlen    : BitVec 8
  /-- DOMAIN (R28). -/
  domain    : Domain
  /-- FAULT, the latch (R30). -/
  fault     : Bool
  /-- FCODE (R31). -/
  fcode     : FaultCode
  /-- FCMD (R32). -/
  fcmd      : CmdWord
  /-- PERM_COUNT (R33). -/
  permCount : BitVec 64
  /-- DATAPATH, fixed for the life of the instance (R11, R231). -/
  datapath  : Config.Datapath
  /-- What the host will still do, the next event first (R21, R60, R246). -/
  inbox     : List HostEvent
  /-- The responses given so far, the oldest first (R247). -/
  responses : List Response
  deriving DecidableEq, Repr

/-- Why the model stops. -/
inductive Fault where
  /-- Raised by a command that would touch `S[addr]` with `addr` not in 0..199, a byte the spec says does not exist
  (R22, R50). Only a state outside the invariants of R29 can lead here. Safe: the machine stops. -/
  | noSuchByte (addr : Nat)
  deriving DecidableEq, Repr

/-- Why the model gives an instruction no meaning. -/
inductive Refusal where
  /-- For an instruction not modelled yet: raised by no arm of this model. Safe: the machine stops. -/
  | notModelled (mnemonic : String)
  deriving DecidableEq, Repr

/-- What a step, and a meaning, answers. -/
abbrev Outcome := Host.Outcome State Fault Refusal

/-! ## Reset -/

/-- The reset state of an instance built with datapath `dp` (R230, R231): nothing presented, nothing answered. -/
def State.resetOf (dp : Config.Datapath) : State where
  mem := []
  phase := .idle
  pos := 0
  rate := 0
  outlen := 0
  domain := .none
  fault := false
  fcode := .none
  fcmd := 0
  permCount := 0
  datapath := dp
  inbox := []
  responses := []

/-- The machine right after reset. DESIGN CHOICE (log entry 1): the spec leaves DATAPATH open; this one state is a
W64 instance's, and `State.resetOf` is every instance's. -/
def State.reset : State := State.resetOf .w64

end Sys2Proof.Machine
end

