-- ==== Sys2Proof/Machine/Bits.lean ====
section
/-! DEFINITION. Machine/Bits.lean: the bit functions of 40_primitives.md and 00_scope.md R16, and the little-endian
packing of bytes into words (20_memory.md R54, R55). -/

namespace Sys2Proof.Machine

/-! ## Bytes and words -/

/-- Byte `j` of a word: its bits 8j+7..8j (R54). -/
def byteOfWord (w : Word) (j : Nat) : Byte := w.extractLsb' (8 * j) 8

/-- The little-endian number of a list of bytes, the first in the low bits (R15, R55). -/
def wordOfBytes : List Byte → Word
  | [] => 0
  | b :: bs => b.setWidth 64 ||| (wordOfBytes bs <<< 8)

/-- The first `n` bytes of an operand word, byte `j` from its bits 8j+7..8j (R55, R152). -/
def operandBytes (n : Imm) (a : Word) : List Byte := (List.range n.toNat).map (byteOfWord a)

/-! ## Rotations (R16): the amount is used modulo the word width, and 0 leaves the word unchanged -/

def rotl64 (x : Word) (n : Nat) : Word := x.rotateLeft n
def rotr64 (x : Word) (n : Nat) : Word := x.rotateRight n
def rotl32 (x : Half) (n : Nat) : Half := x.rotateLeft n
def rotr32 (x : Half) (n : Nat) : Half := x.rotateRight n

/-! ## And-with-complement (R102): the FIRST operand is complemented (90_conflicts.md C1) -/

def andNot {w : Nat} (a b : BitVec w) : BitVec w := ~~~a &&& b

/-! ## Interleaving (R103, R104) -/

/-- The number whose bit `i`, for `i < n`, is `f i`. -/
def natOfBits (f : Nat → Bool) : Nat → Nat
  | 0 => 0
  | n + 1 => natOfBits f n + (if f n then 2 ^ n else 0)

/-- The word whose bit `i` is `f i`. -/
def wordOfBits (w : Nat) (f : Nat → Bool) : BitVec w := BitVec.ofNat w (natOfBits f w)

/-- even[i] = x[2i] (R103). -/
def evenHalf (x : Word) : Half := wordOfBits 32 fun i => x.getLsbD (2 * i)

/-- odd[i] = x[2i+1] (R103). -/
def oddHalf (x : Word) : Half := wordOfBits 32 fun i => x.getLsbD (2 * i + 1)

/-- An interleaved pair packed in one word, odd || even (R103, 00_scope.md R19). -/
def packPair (even odd : Half) : Word := odd ++ even

/-- The halves of a packed pair: even in bits 31:0, odd in bits 63:32 (R104). -/
def pairEven (p : Word) : Half := p.extractLsb' 0 32
def pairOdd (p : Word) : Half := p.extractLsb' 32 32

/-- The lane of two halves: bit 2i is even[i] and bit 2i+1 is odd[i] (R104). -/
def mergeHalves (even odd : Half) : Word :=
  wordOfBits 64 fun j => if j % 2 = 0 then even.getLsbD (j / 2) else odd.getLsbD (j / 2)

/-- INTLV as a function (R103). -/
def interleave (x : Word) : Word := packPair (evenHalf x) (oddHalf x)

/-- DINTLV as a function (R104). -/
def uninterleave (p : Word) : Word := mergeHalves (pairEven p) (pairOdd p)

/-- The interleaved rotate of R105 on the two halves: (even, odd) rotated left by `n` as one lane. -/
def rotatePair (e o : Half) (n : Nat) : Half × Half :=
  let s := n % 64
  let k := s / 2
  if s % 2 = 0 then (rotl32 e k, rotl32 o k) else (rotl32 o (k + 1), rotl32 e k)

end Sys2Proof.Machine
end

