-- ==== Sys2Proof/Machine/Lanes.lean ====
section
/-! DEFINITION. Machine/Lanes.lean: the permutation P of 41_permutation.md on 25 lanes of 64 bits: the reference
definition (R121 to R127) and the constants (R128, R129), which the W64 datapath computes directly (R130). -/

namespace Sys2Proof.Machine

/-- The working copy of a permutation: a list of lanes at the flat indices i = x + 5y (R120, R23). -/
abbrev Lanes := List Word

/-- The 25 lanes `f 0` .. `f 24`. -/
def Lanes.build (f : Nat → Word) : Lanes := (List.range Config.laneCount).map f

/-- The lane at flat index `i`. -/
def Lanes.get (A : Lanes) (i : Nat) : Word := A.getD i 0

/-- `A[x, y]`, column x and row y (R23). -/
def Lanes.at (A : Lanes) (x y : Nat) : Word := A.get (x + 5 * y)

/-! ## Constants -/

/-- The rho offsets by flat index (R128). -/
def rotTable : List Nat :=
  [0, 1, 62, 28, 27] ++ [36, 44, 6, 55, 20] ++ [3, 10, 43, 25, 39] ++ [41, 45, 15, 21, 8] ++ [18, 2, 61, 56, 14]

/-- `ROT` at flat index `i` (R128). -/
def rotAt (i : Nat) : Nat := rotTable.getD i 0

/-- The iota constants (R129). -/
def rcTable : List Word :=
  [0x0000000000000001, 0x0000000000008082, 0x800000000000808A, 0x8000000080008000,
   0x000000000000808B, 0x0000000080000001, 0x8000000080008081, 0x8000000000008009] ++
  [0x000000000000008A, 0x0000000000000088, 0x0000000080008009, 0x000000008000000A,
   0x000000008000808B, 0x800000000000008B, 0x8000000000008089, 0x8000000000008003] ++
  [0x8000000000008002, 0x8000000000000080, 0x000000000000800A, 0x800000008000000A,
   0x8000000080008081, 0x8000000000008080, 0x0000000080000001, 0x8000000080008008]

/-- `RC[ir]` (R129). -/
def rcAt (ir : Nat) : Word := rcTable.getD ir 0

/-! ## The five steps -/

/-- `C[x]`: the parity of column x (R121). -/
def columnParity (A : Lanes) (x : Nat) : Word := A.at x 0 ^^^ A.at x 1 ^^^ A.at x 2 ^^^ A.at x 3 ^^^ A.at x 4

/-- Theta (R121). The list `C` of the five parities is computed once, and `D[x]` from it. -/
def theta (A : Lanes) : Lanes :=
  let C := (List.range 5).map (columnParity A)
  let D := (List.range 5).map fun x => C.getD ((x + 4) % 5) 0 ^^^ rotl64 (C.getD ((x + 1) % 5) 0) 1
  Lanes.build fun i => A.get i ^^^ D.getD (i % 5) 0

/-- Rho (R122). -/
def rho (A : Lanes) : Lanes := Lanes.build fun i => rotl64 (A.get i) (rotAt i)

/-- Where pi takes its new lane `j` from: the lane at (x, y) moves to (y, 2x + 3y mod 5) (R123), so the lane that
arrives at (X, Y) left (X + 3Y mod 5, X). -/
def piSource (j : Nat) : Nat := (j % 5 + 3 * (j / 5)) % 5 + 5 * (j % 5)

/-- Pi (R123). -/
def piStep (A : Lanes) : Lanes := Lanes.build fun j => A.get (piSource j)

/-- The flat index of the lane `k` columns to the right of lane `i` in its row. -/
def rowNeighbour (i k : Nat) : Nat := (i + k) % 5 + 5 * (i / 5)

/-- Chi (R124): every new lane from the old lanes of its row. -/
def chi (A : Lanes) : Lanes :=
  Lanes.build fun i => A.get i ^^^ andNot (A.get (rowNeighbour i 1)) (A.get (rowNeighbour i 2))

/-- Iota in round `ir` (R125). -/
def iota (ir : Nat) (A : Lanes) : Lanes := Lanes.build fun i => if i = 0 then A.get 0 ^^^ rcAt ir else A.get i

/-- One round with index `ir` (R126). -/
def keccakRound (A : Lanes) (ir : Nat) : Lanes := iota ir (chi (piStep (rho (theta A))))

/-- The 24 rounds, in order (R127): the W64 datapath (R130). -/
def permuteW64 (A : Lanes) : Lanes := (List.range Config.roundCount).foldl keccakRound A

end Sys2Proof.Machine
end

