-- ==== Sys2Proof/Machine/Interleaved.lean ====
section
/-! DEFINITION. Machine/Interleaved.lean: the W32I datapath of 41_permutation.md R131, on 25 interleaved pairs of 32-bit
halves, with the interleaved round constants of R138. -/

namespace Sys2Proof.Machine

/-- The working copy of the W32I datapath: 25 even halves and 25 odd halves (R131, 10_state.md R38). -/
structure Pairs where
  even : List Half
  odd  : List Half
  deriving DecidableEq, Repr

/-- The 25 halves `f 0` .. `f 24`. -/
def buildHalves (f : Nat → Half) : List Half := (List.range Config.laneCount).map f

/-- The half at flat index `i`. -/
def halfAt (E : List Half) (i : Nat) : Half := E.getD i 0

/-! ## Round constants (R138) -/

def rcEvenTable : List Half :=
  [0x00000001, 0x00000000, 0x00000000, 0x00000000, 0x00000001, 0x00000001, 0x00000001, 0x00000001] ++
  [0x00000000, 0x00000000, 0x00000001, 0x00000000, 0x00000001, 0x00000001, 0x00000001, 0x00000001] ++
  [0x00000000, 0x00000000, 0x00000000, 0x00000000, 0x00000001, 0x00000000, 0x00000001, 0x00000000]

def rcOddTable : List Half :=
  [0x00000000, 0x00000089, 0x8000008B, 0x80008080, 0x0000008B, 0x00008000, 0x80008088, 0x80000082] ++
  [0x0000000B, 0x0000000A, 0x00008082, 0x00008003, 0x0000808B, 0x8000000B, 0x8000008A, 0x80000081] ++
  [0x80000081, 0x80000008, 0x00000083, 0x80008003, 0x80008088, 0x80000088, 0x00008000, 0x80008082]

/-! ## Conversion: once on entry and once on exit (R131, 90_conflicts.md C8) -/

def toPairs (A : Lanes) : Pairs :=
  ⟨buildHalves fun i => evenHalf (A.get i), buildHalves fun i => oddHalf (A.get i)⟩

def ofPairs (p : Pairs) : Lanes := Lanes.build fun i => mergeHalves (halfAt p.even i) (halfAt p.odd i)

/-! ## The five steps on the halves (R131) -/

/-- The parity of column x of one half. -/
def halfParity (E : List Half) (x : Nat) : Half :=
  halfAt E x ^^^ halfAt E (x + 5) ^^^ halfAt E (x + 10) ^^^ halfAt E (x + 15) ^^^ halfAt E (x + 20)

def thetaPairs (p : Pairs) : Pairs :=
  let Ce := (List.range 5).map (halfParity p.even)
  let Co := (List.range 5).map (halfParity p.odd)
  let De := (List.range 5).map fun x => Ce.getD ((x + 4) % 5) 0 ^^^ rotl32 (Co.getD ((x + 1) % 5) 0) 1
  let Do := (List.range 5).map fun x => Co.getD ((x + 4) % 5) 0 ^^^ Ce.getD ((x + 1) % 5) 0
  ⟨buildHalves fun i => halfAt p.even i ^^^ De.getD (i % 5) 0,
   buildHalves fun i => halfAt p.odd i ^^^ Do.getD (i % 5) 0⟩

def rhoPairs (p : Pairs) : Pairs :=
  ⟨buildHalves fun i => (rotatePair (halfAt p.even i) (halfAt p.odd i) (rotAt i)).1,
   buildHalves fun i => (rotatePair (halfAt p.even i) (halfAt p.odd i) (rotAt i)).2⟩

def piPairs (p : Pairs) : Pairs :=
  ⟨buildHalves fun j => halfAt p.even (piSource j), buildHalves fun j => halfAt p.odd (piSource j)⟩

/-- Chi on one half, all from the old values (90_conflicts.md C12). -/
def chiHalf (E : List Half) : List Half :=
  buildHalves fun i => halfAt E i ^^^ andNot (halfAt E (rowNeighbour i 1)) (halfAt E (rowNeighbour i 2))

def chiPairs (p : Pairs) : Pairs := ⟨chiHalf p.even, chiHalf p.odd⟩

def iotaPairs (ir : Nat) (p : Pairs) : Pairs :=
  ⟨buildHalves fun i => if i = 0 then halfAt p.even 0 ^^^ rcEvenTable.getD ir 0 else halfAt p.even i,
   buildHalves fun i => if i = 0 then halfAt p.odd 0 ^^^ rcOddTable.getD ir 0 else halfAt p.odd i⟩

def pairsRound (p : Pairs) (ir : Nat) : Pairs := iotaPairs ir (chiPairs (piPairs (rhoPairs (thetaPairs p))))

/-- The W32I datapath: interleave, 24 rounds on the halves, un-interleave (R131). -/
def permuteW32I (A : Lanes) : Lanes := ofPairs ((List.range Config.roundCount).foldl pairsRound (toPairs A))

end Sys2Proof.Machine
end

