-- ==== Sys2Proof/Machine/Ops.lean ====
section
/-! DEFINITION. Machine/Ops.lean: the named operations over the state: bytes and words of S (00_scope.md R15), the
permutation applied in place, the context registers, the response, and entry to the fault state (60_exceptions.md R210). -/

namespace Sys2Proof.Machine

/-! ## One byte of S -/

/-- The byte at an address: the listed one, or the blank byte. -/
def Memory.read : Memory → Nat → Byte
  | [], _ => Config.blankByte
  | c :: m, a => if c.1 = a then c.2 else Memory.read m a

/-- Store a byte, keeping the canonical form: writing the blank byte removes the entry. -/
def Memory.write : Memory → Nat → Byte → Memory
  | [], a, b => if b = Config.blankByte then [] else [(a, b)]
  | c :: m, a, b =>
    if a < c.1 then (if b = Config.blankByte then c :: m else (a, b) :: c :: m)
    else if a = c.1 then (if b = Config.blankByte then m else (a, b) :: m)
    else c :: Memory.write m a b

/-- The entry of address `a` in the array of the bytes `f`: none for the blank byte. -/
def Memory.entry (f : Nat → Byte) (a : Nat) : Option Host.Cell :=
  if f a = Config.blankByte then none else some (a, f a)

/-- The array whose byte at each of the 200 addresses `a` is `f a`. -/
def Memory.build (f : Nat → Byte) : Memory := (List.range Config.stateBytes).filterMap (Memory.entry f)

/-- `S[j]` for reading: only the 200 bytes 0..199 exist (R22, R50). -/
def readByte (m : Memory) (j : Nat) : Except Fault Byte :=
  if j < Config.stateBytes then .ok (m.read j) else .error (.noSuchByte j)

/-- `S[j] <- S[j] ^ b` (R151, R153, R154). -/
def xorByte (m : Memory) (j : Nat) (b : Byte) : Except Fault Memory :=
  if j < Config.stateBytes then .ok (m.write j (m.read j ^^^ b)) else .error (.noSuchByte j)

/-! ## Several bytes, little-endian (R15) -/

/-- The word of the `n` bytes from `j` on. -/
def Memory.word (m : Memory) (j n : Nat) : Word := wordOfBytes ((List.range n).map fun k => m.read (j + k))

/-- Store bytes one after another from `j` on. -/
def Memory.writeBytes : Memory → Nat → List Byte → Memory
  | m, _, [] => m
  | m, j, b :: bs => Memory.writeBytes (m.write j b) (j + 1) bs

/-- `MemRead(j, n)` (R15). -/
def memRead (m : Memory) (j n : Nat) : Except Fault Word :=
  if j + n ≤ Config.stateBytes then .ok (m.word j n) else .error (.noSuchByte (max j Config.stateBytes))

/-- `MemWrite(j, n, v)` (R15). -/
def memWrite (m : Memory) (j n : Nat) (v : Word) : Except Fault Memory :=
  if j + n ≤ Config.stateBytes then .ok (m.writeBytes j ((List.range n).map (byteOfWord v)))
  else .error (.noSuchByte (max j Config.stateBytes))

/-! ## The permutation on S (R120, R127, R132) -/

/-- The 25 lanes of S (R23, R120). -/
def lanesOf (m : Memory) : Lanes := Lanes.build fun i => m.word (8 * i) 8

/-- The array that holds 25 lanes: byte k of lane i at 8i + k (R23, R120). -/
def memoryOf (A : Lanes) : Memory := Memory.build fun a => byteOfWord (A.get (a / 8)) (a % 8)

/-- `P(S)` by the reference definition (R127). -/
def keccakP (m : Memory) : Memory := memoryOf (permuteW64 (lanesOf m))

/-- `P(S)` as the instance's datapath computes it (R130, R131). -/
def permuteBy (dp : Config.Datapath) (m : Memory) : Memory :=
  match dp with
  | .w64 => keccakP m
  | .w32i => memoryOf (permuteW32I (lanesOf m))

/-- `S <- P(S); PERM_COUNT <- (PERM_COUNT + 1) mod 2^64` (R33, R137). -/
def applyPermutation (s : State) : State :=
  { s with mem := permuteBy s.datapath s.mem, permCount := s.permCount + 1 }

/-! ## The sponge context -/

/-- The absorbed-position moves past one byte, with the block-boundary permutation of R151 and R155: eager, as soon
as POS reaches RATE. -/
def advancePos (s : State) : State :=
  if s.pos + 1 = s.rate then { applyPermutation s with pos := 0 } else { s with pos := s.pos + 1 }

/-- The context registers of a new sponge context (R150). -/
def initContext (outLen : Imm) (s : State) : State :=
  { s with outlen := outLen, rate := 200 - 2 * outLen, mem := [], pos := 0, domain := .none, phase := .absorbing }

/-- No context: what DISCARD leaves (R157). -/
def clearContext (s : State) : State :=
  { s with mem := [], pos := 0, rate := 0, outlen := 0, domain := .none, phase := .idle }

/-! ## The response (R70) -/

/-- `respond(ok, rd)`. -/
def respond (ok : Bool) (rd : Word) (s : State) : State := { s with responses := s.responses ++ [⟨ok, rd⟩] }

/-- The response of an executed command. -/
def complete (r : Except Fault (Word × State)) : Outcome :=
  match r with
  | .ok (rd, s) => .next (respond true rd s)
  | .error f => .fault f

/-! ## The fault latch (R210, R212). There is no return from a fault (R213): reset alone clears it -/

/-- `raise Fault(f)` for the command word `cmd`: entry to the fault state (R210). -/
def raiseFault (cmd : CmdWord) (f : FaultCode) (s : State) : State :=
  respond false 0 { s with fault := true, fcode := f, fcmd := cmd }

/-- A command refused while FAULT = 1 (R212). -/
def refuse (s : State) : State := respond false 0 s

/-- A command word that fails StaticCheck with code `f` (R78): refused while FAULT = 1, else a fault. -/
def rejectMalformed (cmd : CmdWord) (f : FaultCode) (s : State) : State :=
  if s.fault then refuse s else raiseFault cmd f s

/-! ## Reset and the host's next event (R230, R233, R246) -/

/-- Reset: every register at its reset value; DATAPATH, what the host will do next and the responses it already has
are not the block's to reset (R231, log entry 3). -/
def applyReset (s : State) : State :=
  { State.resetOf s.datapath with inbox := s.inbox, responses := s.responses }

/-- The host's next event, and the state with that event taken from the list. -/
def nextEvent (s : State) : Option (HostEvent × State) :=
  match s.inbox with
  | [] => none
  | e :: rest => some (e, { s with inbox := rest })

/-- The state with a command put before everything the host will still do. -/
def present (t : Transaction) (s : State) : State := { s with inbox := .issue t :: s.inbox }

end Sys2Proof.Machine
end

