-- ==== Sys2Proof/Machine/Operands.lean ====
section
/-! DEFINITION. Machine/Operands.lean: the byte streams a command moves between an operand or the result and S:
AbsorbByte and SqueezeByte of 42_sponge.md (R151, R155) and their loops (R152, R156), and the padding of R153 and R154. -/

namespace Sys2Proof.Machine

/-- AbsorbByte(b) (R151). -/
def absorbByte (b : Byte) (s : State) : Except Fault State :=
  match xorByte s.mem s.pos.toNat b with
  | .ok m => .ok (advancePos { s with mem := m })
  | .error f => .error f

/-- AbsorbByte for each byte in order (R152). -/
def absorbBytes : List Byte → State → Except Fault State
  | [], s => .ok s
  | b :: bs, s =>
    match absorbByte b s with
    | .ok s' => absorbBytes bs s'
    | .error f => .error f

/-- SqueezeByte() (R155). -/
def squeezeByte (s : State) : Except Fault (Byte × State) :=
  match readByte s.mem s.pos.toNat with
  | .ok b => .ok (b, advancePos s)
  | .error f => .error f

/-- SqueezeByte `n` times, the bytes in order (R156). -/
def squeezeBytes : Nat → State → Except Fault (List Byte × State)
  | 0, s => .ok ([], s)
  | n + 1, s =>
    match squeezeByte s with
    | .error f => .error f
    | .ok (b, s') =>
      match squeezeBytes n s' with
      | .error f => .error f
      | .ok (bs, s'') => .ok (b :: bs, s'')

/-- The two padding XORs, the domain byte at POS and then 0x80 at byte RATE-1 (R153, R154, R160): where they coincide
both land. RATE-1 is 8-bit arithmetic; RATE = 0, which no context has, gives no byte of S. -/
def padBlock (domainByte : Byte) (s : State) : Except Fault Memory :=
  match xorByte s.mem s.pos.toNat domainByte with
  | .ok m => xorByte m (s.rate - 1).toNat 0x80
  | .error f => .error f

end Sys2Proof.Machine
end

