-- ==== Sys2Proof/Machine/Flags.lean ====
section
/-! DEFINITION. Machine/Flags.lean: the codes of the named registers, the status words (10_state.md R34 to R36), the
checks made before a command executes (60_exceptions.md R211 steps 4 and 5) and the one step of every command
(30_encoding.md R78). -/

namespace Sys2Proof.Machine

/-! ## Register codes -/

/-- PHASE as its 3-bit register holds it (R24). -/
def Phase.code : Phase → BitVec 3
  | .idle => 0
  | .absorbing => 1
  | .final => 2
  | .squeezing => 3

/-- DOMAIN as its 2-bit register holds it (R28). -/
def Domain.code : Domain → BitVec 2
  | .none => 0
  | .fixed => 1
  | .xof => 2

/-- FCODE as its 4-bit register holds it (R31, R200). -/
def faultNumber : FaultCode → BitVec 4
  | .none => 0
  | .illegalOp => 1
  | .rsvNonzero => 2
  | .badImm => 3
  | .badOutlen => 4
  | .absorbPhase => 5
  | .finalPhase => 6
  | .squeezePhase => 7
  | .digestPhase => 8
  | .rawPhase => 9

/-- The DATAPATH code of the ID word (R36). -/
def datapathCode : Config.Datapath → BitVec 4
  | .w64 => 1
  | .w32i => 2

/-! ## The read-only words -/

/-- The STATUS word (R34, R181). -/
def statusWord (s : State) : Word :=
  (0 : BitVec 24) ++ s.outlen ++ s.rate ++ s.pos ++ (0 : BitVec 6) ++ s.domain.code ++ faultNumber s.fcode ++
    BitVec.ofBool s.fault ++ s.phase.code

/-- The FAULTINFO word (R35, R183). -/
def faultInfoWord (s : State) : Word := (0 : BitVec 28) ++ faultNumber s.fcode ++ s.fcmd

/-- The ID word (R36, R184): 200 state bytes, 24 rounds, the datapath, spec revision 1. -/
def idWord (dp : Config.Datapath) : Word :=
  (0 : BitVec 32) ++ (200 : BitVec 8) ++ (24 : BitVec 8) ++ (0 : BitVec 4) ++ datapathCode dp ++ (1 : BitVec 8)

/-! ## Checks -/

/-- The read-only set (R77). -/
def readOnly : Op → Bool
  | .nop | .rdlane | .rdstat | .rdid | .rdcnt | .rdfault => true
  | .init | .absorb | .final | .xof | .squeeze | .digest | .discard | .wrlane | .permute
  | .ror32 | .ror64 | .andn | .intlv | .dintlv | .irol => false

/-- PhaseCheck (R211 step 4). -/
def phaseCheck (op : Op) (p : Phase) : FaultCode :=
  match op with
  | .absorb => codeUnless (p == .absorbing) .absorbPhase
  | .final | .xof => codeUnless (p == .absorbing) .finalPhase
  | .squeeze => codeUnless (p == .squeezing) .squeezePhase
  | .digest => codeUnless (p == .final) .digestPhase
  | .wrlane | .permute => codeUnless (p == .idle) .rawPhase
  | .nop | .init | .discard | .rdlane | .ror32 | .ror64 | .andn | .intlv | .dintlv | .irol
  | .rdstat | .rdid | .rdcnt | .rdfault => .none

/-- DynamicCheck (R211 step 5). -/
def dynamicCheck (op : Op) (imm : Imm) (outlen : BitVec 8) : FaultCode :=
  match op with
  | .digest => codeUnless (decide (8 * imm.toNat < outlen.toNat)) .badImm
  | .nop | .init | .absorb | .final | .xof | .squeeze | .discard | .wrlane | .rdlane | .permute
  | .ror32 | .ror64 | .andn | .intlv | .dintlv | .irol | .rdstat | .rdid | .rdcnt | .rdfault => .none

/-- The checks of a well-formed command in the order made: the phase first (R211). -/
def stateCheck (i : Instr) (s : State) : FaultCode :=
  match phaseCheck i.op s.phase with
  | .none => dynamicCheck i.op i.imm s.outlen
  | f => f

/-- The one step of every command whose word passes StaticCheck (R78): the latch, the checks, then `Execute`. -/
def perform (i : Instr) (execute : State → Except Fault (Word × State)) (s : State) : Outcome :=
  if s.fault then
    if readOnly i.op then complete (execute s) else .next (refuse s)
  else
    match stateCheck i s with
    | .none => complete (execute s)
    | f => .next (raiseFault i.cmdWord f s)

end Sys2Proof.Machine
end

