-- ==== Sys2Proof/Machine/Primitives.lean ====
section
/-! DEFINITION. Machine/Primitives.lean: the bit-primitive commands of 40_primitives.md (R100 to R105). None reads or
writes a register or S, and each is legal in every phase. -/

namespace Sys2Proof.Machine

/-- ROR32 (R100): the low half of A rotated right, zero-extended. -/
def execRor32 (n : Imm) (a : Word) (s : State) : Outcome :=
  perform (.ror32 n a) (fun s => .ok ((rotr32 (a.setWidth 32) n.toNat).setWidth 64, s)) s

/-- ROR64 (R101). -/
def execRor64 (n : Imm) (a : Word) (s : State) : Outcome :=
  perform (.ror64 n a) (fun s => .ok (rotr64 a n.toNat, s)) s

/-- ANDN (R102). -/
def execAndn (a b : Word) (s : State) : Outcome :=
  perform (.andn a b) (fun s => .ok (andNot a b, s)) s

/-- INTLV (R103). -/
def execIntlv (a : Word) (s : State) : Outcome :=
  perform (.intlv a) (fun s => .ok (interleave a, s)) s

/-- DINTLV (R104). -/
def execDintlv (a : Word) (s : State) : Outcome :=
  perform (.dintlv a) (fun s => .ok (uninterleave a, s)) s

/-- IROL (R105). -/
def execIrol (n : Imm) (a : Word) (s : State) : Outcome :=
  perform (.irol n a)
    (fun s =>
      let r := rotatePair (pairEven a) (pairOdd a) n.toNat
      .ok (packPair r.1 r.2, s)) s

end Sys2Proof.Machine
end

