-- ==== Sys2Proof/Machine/RawState.lean ====
section
/-! DEFINITION. Machine/RawState.lean: the raw-state commands of 41_permutation.md (R135 to R137). -/

namespace Sys2Proof.Machine

/-- WRLANE (R135): `MemWrite(8*imm, 8, A)`. -/
def execWrlane (i : Imm) (a : Word) (s : State) : Outcome :=
  perform (.wrlane i a)
    (fun s =>
      match memWrite s.mem (8 * i.toNat) 8 a with
      | .ok m => .ok (0, { s with mem := m })
      | .error f => .error f) s

/-- RDLANE (R136): `rd <- MemRead(8*imm, 8)`. -/
def execRdlane (i : Imm) (s : State) : Outcome :=
  perform (.rdlane i)
    (fun s =>
      match memRead s.mem (8 * i.toNat) 8 with
      | .ok v => .ok (v, s)
      | .error f => .error f) s

/-- PERMUTE (R137). -/
def execPermute (s : State) : Outcome :=
  perform .permute (fun s => .ok (0, applyPermutation s)) s

end Sys2Proof.Machine
end

