-- ==== Sys2Proof/Machine/Sponge.lean ====
section
/-! DEFINITION. Machine/Sponge.lean: the sponge commands of 42_sponge.md (R150 to R158). -/

namespace Sys2Proof.Machine

/-- INIT (R150): legal in every phase. -/
def execInit (outLen : Imm) (s : State) : Outcome :=
  perform (.init outLen) (fun s => .ok (0, initContext outLen s)) s

/-- ABSORB (R152). -/
def execAbsorb (n : Imm) (a : Word) (s : State) : Outcome :=
  perform (.absorb n a)
    (fun s =>
      match absorbBytes (operandBytes n a) s with
      | .ok s' => .ok (0, s')
      | .error f => .error f) s

/-- FINAL (R153): domain byte 0x06. -/
def execFinal (s : State) : Outcome :=
  perform .final
    (fun s =>
      match padBlock 0x06 s with
      | .ok m => .ok (0, { applyPermutation { s with mem := m } with pos := 0, domain := .fixed, phase := .final })
      | .error f => .error f) s

/-- XOF (R154): domain byte 0x1F. -/
def execXof (s : State) : Outcome :=
  perform .xof
    (fun s =>
      match padBlock 0x1F s with
      | .ok m => .ok (0, { applyPermutation { s with mem := m } with pos := 0, domain := .xof, phase := .squeezing })
      | .error f => .error f) s

/-- SQUEEZE (R156): bytes of rd at j >= n are 0. -/
def execSqueeze (n : Imm) (s : State) : Outcome :=
  perform (.squeeze n)
    (fun s =>
      match squeezeBytes n.toNat s with
      | .ok (bs, s') => .ok (wordOfBytes bs, s')
      | .error f => .error f) s

/-- DISCARD (R157): legal in every phase. -/
def execDiscard (s : State) : Outcome :=
  perform .discard (fun s => .ok (0, clearContext s)) s

/-- DIGEST (R158): the bytes 8k .. 8k+7 of S that lie below OUTLEN, the others 0. -/
def execDigest (k : Imm) (s : State) : Outcome :=
  perform (.digest k)
    (fun s =>
      match memRead s.mem (8 * k.toNat) (min 8 (s.outlen.toNat - 8 * k.toNat)) with
      | .ok v => .ok (v, s)
      | .error f => .error f) s

end Sys2Proof.Machine
end

