-- ==== Sys2Proof/Machine/SystemReads.lean ====
section
/-! DEFINITION. Machine/SystemReads.lean: the status and system commands of 43_system.md (R180 to R184). They change no
register, and they execute while FAULT = 1 too (R77). -/

namespace Sys2Proof.Machine

/-- NOP (R180). -/
def execNop (s : State) : Outcome := perform .nop (fun s => .ok (0, s)) s

/-- RDSTAT (R181). -/
def execRdstat (s : State) : Outcome := perform .rdstat (fun s => .ok (statusWord s, s)) s

/-- RDID (R184). -/
def execRdid (s : State) : Outcome := perform .rdid (fun s => .ok (idWord s.datapath, s)) s

/-- RDCNT (R182). -/
def execRdcnt (s : State) : Outcome := perform .rdcnt (fun s => .ok (s.permCount, s)) s

/-- RDFAULT (R183). -/
def execRdfault (s : State) : Outcome := perform .rdfault (fun s => .ok (faultInfoWord s, s)) s

end Sys2Proof.Machine
end

