-- ==== Sys2Proof/Machine/Dispatch.lean ====
section
/-! DEFINITION. Machine/Dispatch.lean: one arm for each command of 30_encoding.md R74. -/

namespace Sys2Proof.Machine

def exec (i : Instr) (s : State) : Host.Outcome State Fault Refusal :=
  match i with
  | .nop => Sys2Proof.Machine.execNop s
  | .init outLen => Sys2Proof.Machine.execInit outLen s
  | .absorb n a => Sys2Proof.Machine.execAbsorb n a s
  | .final => Sys2Proof.Machine.execFinal s
  | .xof => Sys2Proof.Machine.execXof s
  | .squeeze n => Sys2Proof.Machine.execSqueeze n s
  | .digest k => Sys2Proof.Machine.execDigest k s
  | .discard => Sys2Proof.Machine.execDiscard s
  | .wrlane k a => Sys2Proof.Machine.execWrlane k a s
  | .rdlane k => Sys2Proof.Machine.execRdlane k s
  | .permute => Sys2Proof.Machine.execPermute s
  | .ror32 n a => Sys2Proof.Machine.execRor32 n a s
  | .ror64 n a => Sys2Proof.Machine.execRor64 n a s
  | .andn a b => Sys2Proof.Machine.execAndn a b s
  | .intlv a => Sys2Proof.Machine.execIntlv a s
  | .dintlv a => Sys2Proof.Machine.execDintlv a s
  | .irol n a => Sys2Proof.Machine.execIrol n a s
  | .rdstat => Sys2Proof.Machine.execRdstat s
  | .rdid => Sys2Proof.Machine.execRdid s
  | .rdcnt => Sys2Proof.Machine.execRdcnt s
  | .rdfault => Sys2Proof.Machine.execRdfault s

end Sys2Proof.Machine
end

