-- ==== Sys2Proof/Machine/Step.lean ====
section
/-! DEFINITION. Machine/Step.lean: one step is one event of the host (70_reset_and_hazards.md R240, R246): a command run to
completion, or a reset. The block fetches nothing (10_state.md R21); its next instruction is the next command presented. -/

namespace Sys2Proof.Machine

/-- One transaction, start to response (R78): a word with a static fault is rejected, any other is performed. -/
def runTransaction (t : Transaction) (s : State) : Host.Outcome State Fault Refusal :=
  match decode t with
  | .ok i => exec i s
  | .error f => .next (rejectMalformed t.cmd f s)

/-- One step. With nothing presented the block waits: it acts only on commands (R225, R247; log entry 2). A reset that
cuts a command short leaves the command without effect and without response (R233). -/
def step (s : State) : Host.Outcome State Fault Refusal :=
  match nextEvent s with
  | none => .next s
  | some (.issue t, s') => runTransaction t s'
  | some (.reset, s') => .next (applyReset s')
  | some (.cutByReset _, s') => .next (applyReset s')

/-- The state with the command whose bits are `w` presented next (operand words of zeros unless `nbits` reaches them). -/
def State.withFetchWord (s : State) (nbits w : Nat) : State := present (transactionOfBits nbits w) s

end Sys2Proof.Machine
end

