-- ==== Sys2Proof/Machine/Pseudo.lean ====
section
/-! DEFINITION. Machine/Pseudo.lean: the pseudo-commands of 30_encoding.md R81, host-side spellings that expand to commands;
the block never sees them, and their words decode to the commands they expand to. -/

namespace Sys2Proof.Machine

/-- `ROL64 n, A=x`. -/
def Pseudo.rol64 (n : Nat) (a : Word) : Instr := .ror64 (BitVec.ofNat 8 ((64 - n % 64) % 64)) a

/-- `ROL32 n, A=x`. -/
def Pseudo.rol32 (n : Nat) (a : Word) : Instr := .ror32 (BitVec.ofNat 8 ((32 - n % 32) % 32)) a

/-- `LOADSTATE v0..v24`. -/
def Pseudo.loadState (v : Nat → Word) : List Instr := (List.range 25).map fun i => .wrlane (BitVec.ofNat 8 i) (v i)

/-- The 8-byte chunks of a message, the last one shorter where it must be: their byte counts, and the bytes as a
little-endian word. -/
def Pseudo.chunks (m : List Byte) : List (Imm × Word) :=
  (List.range ((m.length + 7) / 8)).map fun k =>
    let c := (m.drop (8 * k)).take 8
    (BitVec.ofNat 8 c.length, wordOfBytes c)

/-- `ABSORBSTR m`. -/
def Pseudo.absorbStr (m : List Byte) : List Instr := (Pseudo.chunks m).map fun p => .absorb p.1 p.2

/-- The byte counts of the SQUEEZE commands that read `len` bytes. -/
def Pseudo.squeezeCounts (len : Nat) : List Imm :=
  List.replicate (len / 8) 8 ++ (if len % 8 = 0 then [] else [BitVec.ofNat 8 (len % 8)])

/-- `SQUEEZESTR L`. -/
def Pseudo.squeezeStr (len : Nat) : List Instr := (Pseudo.squeezeCounts len).map .squeeze

/-- `SHA3 outLen, m`. -/
def Pseudo.sha3 (outLen : Imm) (m : List Byte) : List Instr :=
  [.init outLen] ++ Pseudo.absorbStr m ++ [.final] ++
    (List.range ((outLen.toNat + 7) / 8)).map fun k => .digest (BitVec.ofNat 8 k)

/-- `SHAKE128 m, L`. -/
def Pseudo.shake128 (m : List Byte) (len : Nat) : List Instr :=
  [.init 16] ++ Pseudo.absorbStr m ++ [.xof] ++ Pseudo.squeezeStr len

/-- `SHAKE256 m, L`. -/
def Pseudo.shake256 (m : List Byte) (len : Nat) : List Instr :=
  [.init 32] ++ Pseudo.absorbStr m ++ [.xof] ++ Pseudo.squeezeStr len

end Sys2Proof.Machine
end

