-- ==== Sys2Proof/Safety.lean ====
section
/-! DEFINITION. Safety.lean: what a well-kept state is (10_state.md R29 to R32), and sequences of commands and their
responses (70_reset_and_hazards.md R247), in the terms the statements use. -/

namespace Sys2Proof.Machine

/-! ## The invariants of a command boundary -/

/-- The row of R29 for the phase the state is in. -/
def State.ContextOk (s : State) : Prop :=
  match s.phase with
  | .idle => s.outlen = 0 ∧ s.rate = 0 ∧ s.pos = 0 ∧ s.domain = .none
  | .absorbing =>
    s.outlen ∈ supportedOutLens ∧ s.rate.toNat = 200 - 2 * s.outlen.toNat ∧ s.pos.toNat < s.rate.toNat ∧
      s.domain = .none
  | .final =>
    s.outlen ∈ supportedOutLens ∧ s.rate.toNat = 200 - 2 * s.outlen.toNat ∧ s.pos = 0 ∧ s.domain = .fixed
  | .squeezing =>
    s.outlen ∈ supportedOutLens ∧ s.rate.toNat = 200 - 2 * s.outlen.toNat ∧ s.pos.toNat < s.rate.toNat ∧
      s.domain = .xof

/-- The code that the checks of R211, all five in order, give a command word in a state. -/
def checkCode (cmd : CmdWord) (s : State) : FaultCode :=
  match Op.ofCode cmd.op with
  | none => .illegalOp
  | some op =>
    match staticCheck cmd with
    | .none =>
      match phaseCheck op s.phase with
      | .none => dynamicCheck op cmd.imm s.outlen
      | f => f
    | f => f

/-- The fault registers: while FAULT = 0, FCODE and FCMD are 0 (R31, R32); while FAULT = 1, FCODE is the code that the
recorded command word FCMD fails with, which the state still shows since nothing else has changed (R210, R212). -/
def State.LatchOk (s : State) : Prop :=
  if s.fault then s.fcode ≠ .none ∧ checkCode s.fcmd s = s.fcode else s.fcode = .none ∧ s.fcmd = 0

/-- What holds at every command boundary: S in canonical form, the context row of R29, and the fault registers. -/
structure State.Inv (s : State) : Prop where
  memory  : s.mem.wf = true
  context : s.ContextOk
  latch   : s.LatchOk

/-! ## Sequences of commands -/

/-- Commands performed one after another, each to completion (R60, R247). -/
def performAll : List Instr → State → Outcome
  | [], s => .next s
  | i :: is, s =>
    match exec i s with
    | .next t => performAll is t
    | .fault f => .fault f
    | .refused r => .refused r

/-- A message given in pieces: each ABSORB command's byte count and operand word (R152, R161). -/
def absorbCommands (pieces : List (Imm × Word)) : List Instr := pieces.map fun p => .absorb p.1 p.2

/-- The message bytes those pieces carry, in order. -/
def messageOf (pieces : List (Imm × Word)) : List Byte := (pieces.map fun p => operandBytes p.1 p.2).flatten

/-- The bytes a series of SQUEEZE commands returns: the first n bytes of each response's result word (R156, R161). -/
def outputOf (counts : List Imm) (rs : List Response) : List Byte :=
  ((counts.zip rs).map fun p => operandBytes p.1 p.2.rd).flatten

/-- Whether the host's next event is a reset, applied by itself or to a command (R246, R233). -/
def HostEvent.isReset : HostEvent → Bool
  | .issue _ => false
  | .reset => true
  | .cutByReset _ => true

/-- The same outcome on an instance with the other datapath. -/
def onDatapath (dp : Config.Datapath) : Outcome → Outcome
  | .next s => .next { s with datapath := dp }
  | .fault f => .fault f
  | .refused r => .refused r

end Sys2Proof.Machine
end

