-- ==== Sys2Proof/Certificates/Slice0/Obligations.lean ====
section
/-! DEFINITION. Certificates/Slice0/Obligations.lean: the statements about the model, in the order reset and step, encoding,
checks and faults, commands by family, the permutation, and the rules of the whole machine. -/

namespace Sys2Proof.Machine

/-! ## Words the statements use -/

/-- The three fields of a command word as numbers (30_encoding.md R71). -/
def opField (t : Transaction) : Nat := t.cmd.toNat / 2 ^ 24
def rsvField (t : Transaction) : Nat := t.cmd.toNat / 2 ^ 8 % 2 ^ 16
def immField (t : Transaction) : Nat := t.cmd.toNat % 2 ^ 8

/-- The static rule of one opcode: a nonzero reserved field is RSV_NONZERO, an illegal immediate gives `code`, and every
other word with this opcode is the instruction `instr` of its immediate and its operand words. -/
def OpcodeRule (op : Nat) (legal : Nat → Prop) (code : FaultCode) (instr : Imm → Word → Word → Instr) : Prop :=
  ∀ t : Transaction, opField t = op →
    (rsvField t ≠ 0 → decode t = .error .rsvNonzero) ∧
    (rsvField t = 0 → ¬ legal (immField t) → decode t = .error code) ∧
    (rsvField t = 0 → legal (immField t) → decode t = .ok (instr (BitVec.ofNat 8 (immField t)) t.a t.b))

/-- Byte `j` of a word, by division. -/
def byteAt (w : Word) (j : Nat) : Byte := BitVec.ofNat 8 (w.toNat / 2 ^ (8 * j))

/-- The command executes, returns `rd`, and nothing but the response list changes. -/
def AnswersOnly (i : Instr) (s : State) (rd : Word) : Prop :=
  exec i s = .next { s with responses := s.responses ++ [⟨true, rd⟩] }

/-- The command faults with code `f` (60_exceptions.md R210): FAULT, FCODE and FCMD are set, the response is (0, 0), and
nothing else changes. -/
def FaultsWith (i : Instr) (s : State) (f : FaultCode) : Prop :=
  exec i s = .next
    { s with fault := true, fcode := f, fcmd := (encode i).cmd, responses := s.responses ++ [⟨false, 0⟩] }

/-- The command is refused (60_exceptions.md R212): the response is (0, 0) and nothing else changes. -/
def RefusedWhole (i : Instr) (s : State) : Prop :=
  exec i s = .next { s with responses := s.responses ++ [⟨false, 0⟩] }

/-- The numbers of PHASE, DOMAIN and FCODE (10_state.md R24, R28; 60_exceptions.md R200). -/
def phaseNumber : Phase → Nat
  | .idle => 0 | .absorbing => 1 | .final => 2 | .squeezing => 3
def domainNumber : Domain → Nat
  | .none => 0 | .fixed => 1 | .xof => 2
def codeNumber : FaultCode → Nat
  | .none => 0 | .illegalOp => 1 | .rsvNonzero => 2 | .badImm => 3 | .badOutlen => 4 | .absorbPhase => 5
  | .finalPhase => 6 | .squeezePhase => 7 | .digestPhase => 8 | .rawPhase => 9

/-- Every register of 10_state.md at the value of the table of 70_reset_and_hazards.md R230. -/
def AtResetValues (t : State) : Prop :=
  (∀ a < 200, t.mem.read a = 0) ∧ t.phase = .idle ∧ t.pos = 0 ∧ t.rate = 0 ∧ t.outlen = 0 ∧ t.domain = .none ∧
    t.fault = false ∧ t.fcode = .none ∧ t.fcmd = 0 ∧ t.permCount = 0 ∧ statusWord t = 0 ∧ faultInfoWord t = 0

/-- The rotation offsets `ROT[x][y]`, a row for each x (41_permutation.md R128). -/
def rotOffset (x y : Nat) : Nat :=
  (([[0, 36, 3, 41, 18], [1, 44, 10, 45, 2], [62, 6, 43, 15, 61], [28, 55, 25, 21, 56],
    [27, 20, 39, 8, 14]].getD x []).getD y 0)

/-- One step of the LFSR of R133 on the bit string R[0..7]. -/
def lfsrNext (r : List Bool) : List Bool :=
  let r8 := r.getD 7 false
  [r8, r.getD 0 false, r.getD 1 false, r.getD 2 false, r.getD 3 false ^^ r8, r.getD 4 false ^^ r8,
   r.getD 5 false ^^ r8, r.getD 6 false]

/-- `rc(t)` (R133). -/
def lfsrBit (t : Nat) : Bool :=
  ((List.range (t % 255)).foldl (fun r _ => lfsrNext r) [true, false, false, false, false, false, false, false]).getD 0
    false

/-- The cell (x, y) of the walk of R134 before its step t. -/
def rotWalk : Nat → Nat × Nat
  | 0 => (1, 0)
  | t + 1 => ((rotWalk t).2, (2 * (rotWalk t).1 + 3 * (rotWalk t).2) % 5)

/-- The opcodes that read operand A, and the one that reads operand B (the "reads" column of R74). -/
def readsA (op : Nat) : Prop := op ∈ [0x02, 0x10, 0x20, 0x21, 0x22, 0x23, 0x24, 0x25]
def readsB (op : Nat) : Prop := op = 0x22

/-- The commands with a result word (the "writes" column of R74 names rd). -/
def givesResult : Instr → Prop
  | .squeeze _ | .digest _ | .rdlane _ | .ror32 _ _ | .ror64 _ _ | .andn _ _ | .intlv _ | .dintlv _ | .irol _ _
  | .rdstat | .rdid | .rdcnt | .rdfault => True
  | .nop | .init _ | .absorb _ _ | .final | .xof | .discard | .wrlane _ _ | .permute => False

/-- The read-only set {NOP, RDLANE, RDSTAT, RDID, RDCNT, RDFAULT} (R77). -/
def InReadOnlySet : Instr → Prop
  | .nop | .rdlane _ | .rdstat | .rdid | .rdcnt | .rdfault => True
  | .init _ | .absorb _ _ | .final | .xof | .squeeze _ | .digest _ | .discard | .wrlane _ _ | .permute
  | .ror32 _ _ | .ror64 _ _ | .andn _ _ | .intlv _ | .dintlv _ | .irol _ _ => False

/-- The checks of R211 steps 4 and 5 that fail, with the code each gives. -/
inductive Violates : Instr → State → FaultCode → Prop
  | absorb (n : Imm) (a : Word) (s : State) : s.phase ≠ .absorbing → Violates (.absorb n a) s .absorbPhase
  | final (s : State) : s.phase ≠ .absorbing → Violates .final s .finalPhase
  | xof (s : State) : s.phase ≠ .absorbing → Violates .xof s .finalPhase
  | squeeze (n : Imm) (s : State) : s.phase ≠ .squeezing → Violates (.squeeze n) s .squeezePhase
  | digestPhase (k : Imm) (s : State) : s.phase ≠ .final → Violates (.digest k) s .digestPhase
  | digestRange (k : Imm) (s : State) :
      s.phase = .final → s.outlen.toNat ≤ 8 * k.toNat → Violates (.digest k) s .badImm
  | wrlane (k : Imm) (a : Word) (s : State) : s.phase ≠ .idle → Violates (.wrlane k a) s .rawPhase
  | permute (s : State) : s.phase ≠ .idle → Violates .permute s .rawPhase

/-- The 21 assigned opcodes (30_encoding.md R74). -/
abbrev Assigned (op : Nat) : Prop :=
  op ≤ 0x07 ∨ 0x10 ≤ op ∧ op ≤ 0x12 ∨ 0x20 ≤ op ∧ op ≤ 0x25 ∨ 0x30 ≤ op ∧ op ≤ 0x33

/-- `FirstFailed op rsv imm phase outlen f`: f is the code of the first check of R211 that fails, the checks in the order the rule
lists them, NONE where none does. -/
def FirstFailed (op rsv imm : Nat) (phase : Phase) (outlen : Nat) (f : FaultCode) : Prop :=
  if ¬ Assigned op then f = .illegalOp
  else if rsv ≠ 0 then f = .rsvNonzero
  else if op = 0x01 ∧ imm ∉ [16, 28, 32, 48, 64] then f = .badOutlen
  else if op ∈ [0x00, 0x03, 0x04, 0x07, 0x12, 0x22, 0x23, 0x24, 0x30, 0x31, 0x32, 0x33] ∧ imm ≠ 0 then f = .badImm
  else if op ∈ [0x02, 0x05] ∧ 8 < imm then f = .badImm
  else if op = 0x06 ∧ 7 < imm then f = .badImm
  else if op ∈ [0x10, 0x11] ∧ 24 < imm then f = .badImm
  else if op = 0x02 ∧ phase ≠ .absorbing then f = .absorbPhase
  else if op ∈ [0x03, 0x04] ∧ phase ≠ .absorbing then f = .finalPhase
  else if op = 0x05 ∧ phase ≠ .squeezing then f = .squeezePhase
  else if op = 0x06 ∧ phase ≠ .final then f = .digestPhase
  else if op ∈ [0x10, 0x12] ∧ phase ≠ .idle then f = .rawPhase
  else if op = 0x06 ∧ outlen ≤ 8 * imm then f = .badImm
  else f = .none

/-- The entry of the table of 42_sponge.md R159, `none` where it says fault; the commands it does not list leave PHASE. -/
def phaseAfter (p : Phase) : Instr → Option Phase
  | .init _ => some .absorbing
  | .absorb _ _ => if p = .absorbing then some .absorbing else none
  | .final => if p = .absorbing then some .final else none
  | .xof => if p = .absorbing then some .squeezing else none
  | .squeeze _ => if p = .squeezing then some .squeezing else none
  | .digest _ => if p = .final then some .final else none
  | .discard => some .idle
  | .nop | .wrlane _ _ | .rdlane _ | .permute | .ror32 _ _ | .ror64 _ _ | .andn _ _ | .intlv _ | .dintlv _
  | .irol _ _ | .rdstat | .rdid | .rdcnt | .rdfault => some p

/-- The message padded to whole blocks of `rate` bytes (42_sponge.md R160): byte j of the padded message. -/
def paddedByte (domainByte : Byte) (rate : Nat) (msg : List Byte) (j : Nat) : Byte :=
  (if j < msg.length then msg.getD j 0 else 0) ^^^ (if j = msg.length then domainByte else 0) ^^^
    (if j + 1 = (msg.length / rate + 1) * rate then 0x80 else 0)

/-- The state after the first `n` blocks of a padded message: XOR a block into bytes 0..rate-1, then permute. -/
def spongeBlocks (domainByte : Byte) (rate : Nat) (msg : List Byte) : Nat → Memory
  | 0 => []
  | n + 1 =>
    keccakP (Memory.build fun a =>
      (spongeBlocks domainByte rate msg n).read a ^^^
        (if a < rate then paddedByte domainByte rate msg (rate * n + a) else 0))

/-- Byte `i` of the output stream of a sponge that starts in state `m`: byte i mod rate of the block that i div rate
permutations give (42_sponge.md R155, R156). -/
def streamByte (rate : Nat) (m : Memory) (i : Nat) : Byte := (keccakP^[i / rate] m).read (i % rate)

/-- The bytes of result words, eight a word. -/
def resultBytes (rs : List Response) : List Byte := (rs.map fun r => (List.range 8).map (byteAt r.rd)).flatten

end Sys2Proof.Machine

open Sys2Proof Sys2Proof.Machine

/-! ## Reset and the step -/

/-- R230, R231, R233: a reset, applied by itself or to a command that has not answered, leaves every register at its reset
value, DATAPATH and the ID word as they were, and adds no response; and no command clears FAULT or PERM_COUNT, which a
command from a well-kept state leaves or counts up by 1 modulo 2^64. -/
def Obligations.ResetGivesResetValuesAndAloneClears : Prop :=
  (∀ (s : State) (e : HostEvent) (rest : List HostEvent), s.inbox = e :: rest → e.isReset = true →
    ∃ t, step s = .next t ∧ AtResetValues t ∧ t.datapath = s.datapath ∧ idWord t.datapath = idWord s.datapath ∧
      t.responses.length ≤ s.responses.length) ∧
  (∀ (s t : State) (tr : Transaction) (rest : List HostEvent), s.Inv → s.inbox = .issue tr :: rest →
    step s = .next t →
    (s.fault = true → t.fault = true) ∧ (t.permCount = s.permCount ∨ t.permCount = s.permCount + 1))

/-- The state after reset of an instance of either datapath has every register at its reset value, with nothing presented
and nothing answered (the two lists are the model's own fields, log entries 2 and 3). -/
def Obligations.ResetStateHasResetValues : Prop :=
  ∀ dp : Config.Datapath, AtResetValues (State.resetOf dp) ∧ (State.resetOf dp).datapath = dp ∧
    (State.resetOf dp).inbox = [] ∧ (State.resetOf dp).responses = []

/-- A step runs the decoded command: when the host's next event is a transaction that decodes to i, the step is exec of i
at the state with that event taken from the list; and a state given a fetch word runs exactly its instruction. -/
def Obligations.StepRunsTheDecodedCommand : Prop :=
  (∀ (s : State) (t : Transaction) (rest : List HostEvent) (i : Instr), s.inbox = .issue t :: rest →
    decode t = .ok i → step s = exec i { s with inbox := rest }) ∧
  (∀ (s : State) (nbits w : Nat) (i : Instr), decodeTableWord nbits w = some i →
    step (s.withFetchWord nbits w) = exec i s)

/-- A transaction whose word has a static fault code f: with FAULT clear it faults with f, FCMD the word presented; with
FAULT set it is refused. -/
def Obligations.MalformedWordsAreRejected : Prop :=
  ∀ (s : State) (t : Transaction) (rest : List HostEvent) (f : FaultCode), s.inbox = .issue t :: rest →
    decode t = .error f →
    (s.fault = false → step s = .next
      { s with inbox := rest, fault := true, fcode := f, fcmd := t.cmd, responses := s.responses ++ [⟨false, 0⟩] }) ∧
    (s.fault = true → step s = .next { s with inbox := rest, responses := s.responses ++ [⟨false, 0⟩] })

/-- The model's choice (log entry 2): with nothing presented the block waits, and its state does not change. -/
def Obligations.BlockWaitsForACommand : Prop := ∀ s : State, s.inbox = [] → step s = .next s

/-! ## Encoding -/

/-- Decoding the encoding of a well-formed instruction gives it back, with every operand at every value. -/
def Obligations.DecodeOfEncodeIsTheInstruction : Prop := ∀ i : Instr, i.wf = true → decode (encode i) = .ok i

/-- A transaction that decodes gives a well-formed instruction, whose encoding is the same command word and the same
operand words, less those the opcode does not read. -/
def Obligations.EncodeOfDecodeIsTheTransaction : Prop :=
  ∀ (t : Transaction) (i : Instr), decode t = .ok i →
    i.wf = true ∧ (encode i).cmd = t.cmd ∧
      (readsA (opField t) → (encode i).a = t.a) ∧ (¬ readsA (opField t) → (encode i).a = 0) ∧
      (readsB (opField t) → (encode i).b = t.b) ∧ (¬ readsB (opField t) → (encode i).b = 0)

/-- R201, R75: a word whose opcode is none of the 21 assigned values faults with ILLEGAL_OP whatever the rest of it, and
every word with an assigned opcode has another fate. R202: a nonzero reserved field of an assigned opcode is RSV_NONZERO. -/
def Obligations.ReservedOpcodesAndFieldsAreIllegal : Prop :=
  ∀ t : Transaction,
    ((8 ≤ opField t ∧ opField t ≤ 0x0F ∨ 0x13 ≤ opField t ∧ opField t ≤ 0x1F ∨
      0x26 ≤ opField t ∧ opField t ≤ 0x2F ∨ 0x34 ≤ opField t) ↔ decode t = .error .illegalOp) ∧
    (decode t ≠ .error .illegalOp → rsvField t ≠ 0 → decode t = .error .rsvNonzero) ∧
    (rsvField t = 0 → decode t ≠ .error .rsvNonzero)

/-- Words written out from R71 and R74 decode to the instructions they stand for. -/
def Obligations.WrittenWordsDecode : Prop :=
  decode ⟨0x01000020, 5, 7⟩ = .ok (.init 32) ∧
  decode ⟨0x02000003, 0x636261, 7⟩ = .ok (.absorb 3 0x636261) ∧
  decode ⟨0x10000018, 0x0123456789ABCDEF, 7⟩ = .ok (.wrlane 24 0x0123456789ABCDEF) ∧
  decode ⟨0x22000000, 0xFF, 0x0F⟩ = .ok (.andn 0xFF 0x0F) ∧
  decode ⟨0x2500002C, 9, 7⟩ = .ok (.irol 44 9) ∧
  decode ⟨0x33000000, 9, 7⟩ = .ok .rdfault ∧
  decode ⟨0x01000120, 0, 0⟩ = .error .rsvNonzero ∧
  decode ⟨0x40000100, 0, 0⟩ = .error .illegalOp

/-- R76: an operand word a command does not read has no effect; a command with no result returns rd = 0 when ok = 1; and
every command with ok = 0 returns rd = 0. -/
def Obligations.UnreadOperandsAndEmptyResults : Prop :=
  (∀ (s : State) (t t' : Transaction), t.cmd = t'.cmd → (readsA (opField t) → t.a = t'.a) →
    (readsB (opField t) → t.b = t'.b) → step (present t s) = step (present t' s)) ∧
  (∀ (i : Instr) (s u : State) (r : Response), exec i s = .next u → u.responses = s.responses ++ [r] →
    r.ok = true → ¬ givesResult i → r.rd = 0) ∧
  (∀ (t : Transaction) (s u : State) (r : Response), step (present t s) = .next u →
    u.responses = s.responses ++ [r] → r.ok = false → r.rd = 0)

/-! ## Checks and the fault latch -/

/-- R205 to R209: with FAULT clear, a command that fails its phase check, or DIGEST's range check (R203), faults with the
code of the rule, records its command word, and changes nothing else (R210). -/
def Obligations.FailedStateChecksFault : Prop :=
  ∀ (i : Instr) (s : State) (f : FaultCode), s.fault = false → Violates i s f → FaultsWith i s f

/-- R211, R210: with FAULT clear, a transaction whose word fails a check of R211 faults with the code of the first that
fails, FCMD the word presented, and changes nothing else; one that fails none executes with ok = 1 and sets no fault. -/
def Obligations.EachCommandReportsItsFirstFailedCheck : Prop :=
  ∀ (s : State) (t : Transaction), s.Inv → s.fault = false →
    (∀ f, FirstFailed (opField t) (rsvField t) (immField t) s.phase s.outlen.toNat f → f ≠ .none →
      step (present t s) = .next
        { s with fault := true, fcode := f, fcmd := t.cmd, responses := s.responses ++ [⟨false, 0⟩] }) ∧
    (FirstFailed (opField t) (rsvField t) (immField t) s.phase s.outlen.toNat .none →
      ∃ (u : State) (rd : Word), step (present t s) = .next u ∧ u.responses = s.responses ++ [⟨true, rd⟩] ∧
        u.fault = false)

/-- R212: while FAULT = 1 a command of the read-only set executes with ok = 1 and every other one is refused, changing
nothing; so is a word of any opcode that fails StaticCheck. -/
def Obligations.LatchRefusesAllButReads : Prop :=
  (∀ (i : Instr) (s : State), s.fault = true → i.wf = true → InReadOnlySet i → ∃ rd, AnswersOnly i s rd) ∧
  (∀ (i : Instr) (s : State), s.fault = true → ¬ InReadOnlySet i → RefusedWhole i s) ∧
  (∀ (t : Transaction) (s : State) (f : FaultCode), s.fault = true → decode t = .error f →
    step (present t s) = .next { s with responses := s.responses ++ [⟨false, 0⟩] })

/-- R213: whatever commands the host issues one after another, until a reset is applied the latch stays set and keeps the
first fault, and S and every register keep their values; each transaction gets one response. -/
def Obligations.LatchLastsUntilReset : Prop :=
  ∀ (k : Nat) (s t : State), s.fault = true → k ≤ s.inbox.length → (∀ e ∈ s.inbox.take k, e.isReset = false) →
    core.run k s = .next t →
    ∃ rs : List Response, rs.length = k ∧ t = { s with inbox := s.inbox.drop k, responses := s.responses ++ rs }

/-- R214: whether a command that is not malformed faults depends on its opcode, its immediate, PHASE and OUTLEN; no value
of A, B or S matters. -/
def Obligations.NoDataValueFaults : Prop :=
  ∀ (i j : Instr) (s u s' u' : State), i.op = j.op → i.imm = j.imm → s.phase = u.phase → s.outlen = u.outlen →
    s.fault = false → u.fault = false → exec i s = .next s' → exec j u = .next u' →
    s'.fault = u'.fault ∧ (s'.fault = true → s'.fcode = u'.fcode)

/-! ## Status and system commands -/

/-- R180: NOP changes nothing and returns 0, in every phase and while FAULT = 1. -/
def Obligations.NopAnswersZero : Prop :=
  OpcodeRule 0x00 (· = 0) .badImm (fun _ _ _ => .nop) ∧ ∀ s : State, AnswersOnly .nop s 0

/-- R181 (layout of R34): RDSTAT returns the STATUS word, whatever the state. -/
def Obligations.RdstatReturnsStatus : Prop :=
  OpcodeRule 0x30 (· = 0) .badImm (fun _ _ _ => .rdstat) ∧
  ∀ s : State, ∃ rd : Word, AnswersOnly .rdstat s rd ∧
    rd.toNat = phaseNumber s.phase + 2 ^ 3 * s.fault.toNat + 2 ^ 4 * codeNumber s.fcode +
      2 ^ 8 * domainNumber s.domain + 2 ^ 16 * s.pos.toNat + 2 ^ 24 * s.rate.toNat + 2 ^ 32 * s.outlen.toNat

/-- RDCNT returns PERM_COUNT, whatever the state; INIT and DISCARD do not change PERM_COUNT (R182). -/
def Obligations.RdcntReturnsTheCount : Prop :=
  OpcodeRule 0x32 (· = 0) .badImm (fun _ _ _ => .rdcnt) ∧
  (∀ s : State, AnswersOnly .rdcnt s s.permCount) ∧
  (∀ (n : Imm) (s t : State), exec (.init n) s = .next t → t.permCount = s.permCount) ∧
  (∀ s t : State, exec .discard s = .next t → t.permCount = s.permCount)

/-- R183, R35: RDFAULT returns FCMD in bits 31:0 and FCODE in bits 35:32, 0 while FAULT = 0 in a well-kept state. -/
def Obligations.RdfaultReturnsFaultInfo : Prop :=
  OpcodeRule 0x33 (· = 0) .badImm (fun _ _ _ => .rdfault) ∧
  ∀ s : State, ∃ rd : Word, AnswersOnly .rdfault s rd ∧
    rd.toNat = s.fcmd.toNat + 2 ^ 32 * codeNumber s.fcode ∧ (s.Inv → s.fault = false → rd = 0)

/-- RDID returns the ID word of the instance (R184, R36). -/
def Obligations.RdidReturnsTheId : Prop :=
  OpcodeRule 0x31 (· = 0) .badImm (fun _ _ _ => .rdid) ∧
  ∀ s : State, (s.datapath = .w64 → AnswersOnly .rdid s 0x00000000C8180101) ∧
    (s.datapath = .w32i → AnswersOnly .rdid s 0x00000000C8180201)

/-! ## Bit-primitive commands -/

/-- R100: ROR32 rotates A[31:0] right by n mod 32 and zero-extends. -/
def Obligations.Ror32RotatesTheLowHalf : Prop :=
  OpcodeRule 0x20 (fun _ => True) .badImm (fun n a _ => .ror32 n a) ∧
  ∀ (n : Imm) (a : Word) (s : State), s.fault = false → ∃ rd : Word, AnswersOnly (.ror32 n a) s rd ∧
    ∀ j < 64, rd.getLsbD j = if j < 32 then a.getLsbD ((j + n.toNat) % 32) else false

/-- R101: ROR64 rotates A right by n mod 64. -/
def Obligations.Ror64RotatesTheWord : Prop :=
  OpcodeRule 0x21 (fun _ => True) .badImm (fun n a _ => .ror64 n a) ∧
  ∀ (n : Imm) (a : Word) (s : State), s.fault = false → ∃ rd : Word, AnswersOnly (.ror64 n a) s rd ∧
    ∀ j < 64, rd.getLsbD j = a.getLsbD ((j + n.toNat) % 64)

/-- R102: ANDN returns (~A) & B. -/
def Obligations.AndnComplementsTheFirstOperand : Prop :=
  OpcodeRule 0x22 (· = 0) .badImm (fun _ a b => .andn a b) ∧
  ∀ (a b : Word) (s : State), s.fault = false → ∃ rd : Word, AnswersOnly (.andn a b) s rd ∧
    ∀ j < 64, rd.getLsbD j = (!a.getLsbD j && b.getLsbD j)

/-- R103: INTLV puts the even-indexed bits of A in rd[31:0] and the odd-indexed ones in rd[63:32]. -/
def Obligations.IntlvSplitsEvenAndOddBits : Prop :=
  OpcodeRule 0x23 (· = 0) .badImm (fun _ a _ => .intlv a) ∧
  ∀ (a : Word) (s : State), s.fault = false → ∃ rd : Word, AnswersOnly (.intlv a) s rd ∧
    ∀ j < 32, rd.getLsbD j = a.getLsbD (2 * j) ∧ rd.getLsbD (32 + j) = a.getLsbD (2 * j + 1)

/-- R104: DINTLV puts A[31:0] at the even places and A[63:32] at the odd ones, and INTLV and DINTLV are inverse to each
other over all words. -/
def Obligations.DintlvInvertsIntlv : Prop :=
  OpcodeRule 0x24 (· = 0) .badImm (fun _ a _ => .dintlv a) ∧
  (∀ (a : Word) (s : State), s.fault = false → ∃ rd : Word, AnswersOnly (.dintlv a) s rd ∧
    (∀ j < 32, rd.getLsbD (2 * j) = a.getLsbD j ∧ rd.getLsbD (2 * j + 1) = a.getLsbD (32 + j)) ∧
    AnswersOnly (.intlv rd) s a) ∧
  (∀ (a : Word) (s : State), s.fault = false → ∃ rd : Word, AnswersOnly (.intlv a) s rd ∧ AnswersOnly (.dintlv rd) s a)

/-- R105: with s = n mod 64 and k = s div 2, IROL rotates both halves of the pair left by k for an even s; for an odd s the
new even half is the odd one rotated by k + 1, and the new odd half the even one rotated by k. So the result is the
interleaved form of the operand's lane rotated left by s. -/
def Obligations.IrolRotatesTheInterleavedLane : Prop :=
  OpcodeRule 0x25 (fun _ => True) .badImm (fun n a _ => .irol n a) ∧
  ∀ (n : Imm) (a : Word) (s : State), s.fault = false →
    ∃ rd : Word, AnswersOnly (.irol n a) s rd ∧
      (∀ j < 32, let k := n.toNat % 64 / 2
        if n.toNat % 2 = 0 then
          rd.getLsbD ((j + k) % 32) = a.getLsbD j ∧ rd.getLsbD (32 + (j + k) % 32) = a.getLsbD (32 + j)
        else
          rd.getLsbD ((j + (k + 1)) % 32) = a.getLsbD (32 + j) ∧ rd.getLsbD (32 + (j + k) % 32) = a.getLsbD j) ∧
      ∃ x y : Word, AnswersOnly (.intlv x) s a ∧ AnswersOnly (.intlv y) s rd ∧
        ∀ j < 64, y.getLsbD ((j + n.toNat) % 64) = x.getLsbD j

/-! ## Raw-state commands -/

/-- R136: RDLANE i returns bytes 8i .. 8i+7 of S, the first in the low bits, in every phase and while FAULT = 1. -/
def Obligations.RdlaneReturnsTheLane : Prop :=
  OpcodeRule 0x11 (· ≤ 24) .badImm (fun i _ _ => .rdlane i) ∧
  ∀ (i : Imm) (s : State), i.toNat ≤ 24 → ∃ rd : Word, AnswersOnly (.rdlane i) s rd ∧
    ∀ k < 8, byteAt rd k = s.mem.read (8 * i.toNat + k)

/-- R135: in IDLE, WRLANE i stores A[8k+7:8k] at byte 8i+k and leaves every other byte alone; in another phase it faults
with RAW_PHASE. -/
def Obligations.WrlaneStoresTheLane : Prop :=
  OpcodeRule 0x10 (· ≤ 24) .badImm (fun i a _ => .wrlane i a) ∧
  (∀ (i : Imm) (a : Word) (s : State), s.fault = false → s.phase = .idle → s.mem.wf = true → i.toNat ≤ 24 →
    ∃ m : Memory, exec (.wrlane i a) s = .next { s with mem := m, responses := s.responses ++ [⟨true, 0⟩] } ∧
      ∀ j, m.read j =
        if 8 * i.toNat ≤ j ∧ j < 8 * i.toNat + 8 then byteAt a (j - 8 * i.toNat) else s.mem.read j) ∧
  (∀ (i : Imm) (a : Word) (s : State), s.fault = false → s.phase ≠ .idle → FaultsWith (.wrlane i a) s .rawPhase)

/-- R137: in IDLE, PERMUTE replaces S by P(S) of R127 whatever the datapath, and counts one permutation; in another phase
it faults with RAW_PHASE. -/
def Obligations.PermuteAppliesTheReference : Prop :=
  OpcodeRule 0x12 (· = 0) .badImm (fun _ _ _ => .permute) ∧
  (∀ s : State, s.fault = false → s.phase = .idle →
    exec .permute s = .next
      { s with mem := keccakP s.mem, permCount := s.permCount + 1, responses := s.responses ++ [⟨true, 0⟩] }) ∧
  (∀ s : State, s.fault = false → s.phase ≠ .idle → FaultsWith .permute s .rawPhase)

/-! ## Sponge commands -/

/-- R150: INIT n, in every phase, starts a context: RATE = 200 - 2n, S all zero, POS = 0, DOMAIN = NONE, PHASE =
ABSORBING, OUTLEN = n; PERM_COUNT and everything else keep their values. -/
def Obligations.InitStartsAContext : Prop :=
  OpcodeRule 0x01 (· ∈ [16, 28, 32, 48, 64]) .badOutlen (fun n _ _ => .init n) ∧
  ∀ (n : Imm) (s : State), s.fault = false → n.toNat ∈ [16, 28, 32, 48, 64] →
    ∃ (m : Memory) (rate : BitVec 8), (∀ a, m.read a = 0) ∧ rate.toNat = 200 - 2 * n.toNat ∧
      exec (.init n) s = .next { s with
        outlen := n, rate := rate, mem := m, pos := 0, domain := .none, phase := .absorbing,
        responses := s.responses ++ [⟨true, 0⟩] }

/-- R157: DISCARD, in every phase, zeroes S and the context and returns to IDLE; PERM_COUNT, the fault registers and
everything else keep their values. -/
def Obligations.DiscardDestroysTheContext : Prop :=
  OpcodeRule 0x07 (· = 0) .badImm (fun _ _ _ => .discard) ∧
  ∀ s : State, s.fault = false → ∃ m : Memory, (∀ a, m.read a = 0) ∧
    exec .discard s = .next { s with
      mem := m, pos := 0, rate := 0, outlen := 0, domain := .none, phase := .idle,
      responses := s.responses ++ [⟨true, 0⟩] }

/-- R152, R151: ABSORB n in ABSORBING. When the n bytes end before the block does, byte j of A is XORed into S[POS + j]
and POS moves by n. When they reach its end, the first RATE - POS bytes are XORed in, P is applied at once, and the rest
are XORed in from byte 0 of the new block. In another phase it faults with ABSORB_PHASE. -/
def Obligations.AbsorbXorsTheBytes : Prop :=
  OpcodeRule 0x02 (· ≤ 8) .badImm (fun n a _ => .absorb n a) ∧
  (∀ (n : Imm) (a : Word) (s : State), s.Inv → s.fault = false → s.phase = .absorbing → n.toNat ≤ 8 →
    s.pos.toNat + n.toNat < s.rate.toNat →
    ∃ m : Memory, exec (.absorb n a) s = .next
        { s with mem := m, pos := s.pos + n, responses := s.responses ++ [⟨true, 0⟩] } ∧
      ∀ j, m.read j = s.mem.read j ^^^
        (if s.pos.toNat ≤ j ∧ j < s.pos.toNat + n.toNat then byteAt a (j - s.pos.toNat) else 0)) ∧
  (∀ (n : Imm) (a : Word) (s : State), s.Inv → s.fault = false → s.phase = .absorbing → n.toNat ≤ 8 →
    s.rate.toNat ≤ s.pos.toNat + n.toNat →
    ∃ (m m' : Memory) (pos : BitVec 8), pos.toNat = s.pos.toNat + n.toNat - s.rate.toNat ∧
      exec (.absorb n a) s = .next
        { s with mem := m', pos := pos, permCount := s.permCount + 1, responses := s.responses ++ [⟨true, 0⟩] } ∧
      (∀ j, m.read j = s.mem.read j ^^^
        (if s.pos.toNat ≤ j ∧ j < s.rate.toNat then byteAt a (j - s.pos.toNat) else 0)) ∧
      (∀ j, m'.read j = (keccakP m).read j ^^^
        (if j < pos.toNat then byteAt a (s.rate.toNat - s.pos.toNat + j) else 0))) ∧
  (∀ (n : Imm) (a : Word) (s : State), s.fault = false → s.phase ≠ .absorbing →
    FaultsWith (.absorb n a) s .absorbPhase)

/-- R153: FINAL in ABSORBING XORs 0x06 into S[POS] and 0x80 into S[RATE-1], both where they coincide, applies P, and sets
POS = 0, DOMAIN = FIXED, PHASE = FINAL. In another phase it faults with FINAL_PHASE. -/
def Obligations.FinalPadsAndPermutes : Prop :=
  OpcodeRule 0x03 (· = 0) .badImm (fun _ _ _ => .final) ∧
  (∀ s : State, s.Inv → s.fault = false → s.phase = .absorbing →
    ∃ m : Memory, exec .final s = .next { s with
        mem := keccakP m, permCount := s.permCount + 1, pos := 0, domain := .fixed, phase := .final,
        responses := s.responses ++ [⟨true, 0⟩] } ∧
      ∀ j, m.read j = s.mem.read j ^^^ (if j = s.pos.toNat then 0x06 else 0) ^^^
        (if j + 1 = s.rate.toNat then 0x80 else 0)) ∧
  (∀ s : State, s.fault = false → s.phase ≠ .absorbing → FaultsWith .final s .finalPhase)

/-- R154: XOF in ABSORBING does the same with 0x1F, and sets POS = 0, DOMAIN = XOF, PHASE = SQUEEZING. In another phase it
faults with FINAL_PHASE. -/
def Obligations.XofPadsAndSwitches : Prop :=
  OpcodeRule 0x04 (· = 0) .badImm (fun _ _ _ => .xof) ∧
  (∀ s : State, s.Inv → s.fault = false → s.phase = .absorbing →
    ∃ m : Memory, exec .xof s = .next { s with
        mem := keccakP m, permCount := s.permCount + 1, pos := 0, domain := .xof, phase := .squeezing,
        responses := s.responses ++ [⟨true, 0⟩] } ∧
      ∀ j, m.read j = s.mem.read j ^^^ (if j = s.pos.toNat then 0x1F else 0) ^^^
        (if j + 1 = s.rate.toNat then 0x80 else 0)) ∧
  (∀ s : State, s.fault = false → s.phase ≠ .absorbing → FaultsWith .xof s .finalPhase)

/-- R156, R155: SQUEEZE n in SQUEEZING returns the next n bytes, byte j in rd[8j+7:8j] and 0 above them. When they end
before the block does, only POS moves, by n. When they reach its end, P is applied at once and the rest are read from byte
0 of the new block. In another phase it faults with SQUEEZE_PHASE. -/
def Obligations.SqueezeReturnsTheBytes : Prop :=
  OpcodeRule 0x05 (· ≤ 8) .badImm (fun n _ _ => .squeeze n) ∧
  (∀ (n : Imm) (s : State), s.Inv → s.fault = false → s.phase = .squeezing → n.toNat ≤ 8 →
    s.pos.toNat + n.toNat < s.rate.toNat →
    ∃ rd : Word, exec (.squeeze n) s = .next
        { s with pos := s.pos + n, responses := s.responses ++ [⟨true, rd⟩] } ∧
      ∀ j < 8, byteAt rd j = if j < n.toNat then s.mem.read (s.pos.toNat + j) else 0) ∧
  (∀ (n : Imm) (s : State), s.Inv → s.fault = false → s.phase = .squeezing → n.toNat ≤ 8 →
    s.rate.toNat ≤ s.pos.toNat + n.toNat →
    ∃ (rd : Word) (pos : BitVec 8), pos.toNat = s.pos.toNat + n.toNat - s.rate.toNat ∧
      exec (.squeeze n) s = .next
        { s with mem := keccakP s.mem, pos := pos, permCount := s.permCount + 1,
                 responses := s.responses ++ [⟨true, rd⟩] } ∧
      ∀ j < 8, byteAt rd j =
        if s.pos.toNat + j < s.rate.toNat then s.mem.read (s.pos.toNat + j)
        else if j < n.toNat then (keccakP s.mem).read (s.pos.toNat + j - s.rate.toNat) else 0) ∧
  (∀ (n : Imm) (s : State), s.fault = false → s.phase ≠ .squeezing → FaultsWith (.squeeze n) s .squeezePhase)

/-- R158: DIGEST k in FINAL with 8k < OUTLEN returns bytes 8k .. 8k+7 of S, those from OUTLEN on as 0, and changes nothing.
In another phase it faults with DIGEST_PHASE; in FINAL with 8k >= OUTLEN, with BAD_IMM. -/
def Obligations.DigestReadsTheDigest : Prop :=
  OpcodeRule 0x06 (· ≤ 7) .badImm (fun k _ _ => .digest k) ∧
  (∀ (k : Imm) (s : State), s.fault = false → s.phase = .final → k.toNat ≤ 7 → 8 * k.toNat < s.outlen.toNat →
    ∃ rd : Word, AnswersOnly (.digest k) s rd ∧
      ∀ j < 8, byteAt rd j = if 8 * k.toNat + j < s.outlen.toNat then s.mem.read (8 * k.toNat + j) else 0) ∧
  (∀ (k : Imm) (s : State), s.fault = false → s.phase ≠ .final → FaultsWith (.digest k) s .digestPhase) ∧
  (∀ (k : Imm) (s : State), s.fault = false → s.phase = .final → s.outlen.toNat ≤ 8 * k.toNat →
    FaultsWith (.digest k) s .badImm)

/-- R159: with FAULT clear, a command that answers leaves PHASE as the table says, or, where the table says fault, faults
and leaves PHASE. -/
def Obligations.PhasesFollowTheTable : Prop :=
  ∀ (i : Instr) (s t : State), s.fault = false → exec i s = .next t →
    match phaseAfter s.phase i with
    | some p => t.phase = p ∧ (t.fault = true → ∃ k, i = .digest k ∨ (∃ a, i = .wrlane k a) ∨ i = .permute)
    | none => t.fault = true ∧ t.phase = s.phase

/-! ## The permutation -/

/-- R120, R126, R127: the lanes of P(S) are the lanes of S after the 24 rounds in order, each round theta, rho, pi, chi and
iota in that order; and lane i holds byte k of its eight at 8i + k. -/
def Obligations.PermutationRunsTheRoundsOnTheLanes : Prop :=
  (∀ (m : Memory) (i : Nat), i < 25 → ∀ k < 8, byteAt ((lanesOf m).get i) k = m.read (8 * i + k)) ∧
  (∀ (m : Memory) (i : Nat), i < 25 → (lanesOf (keccakP m)).get i =
    ((List.range 24).foldl (fun A ir => iota ir (chi (piStep (rho (theta A))))) (lanesOf m)).get i)

/-- R121 to R125: the five steps, lane by lane in the coordinates of the rules. -/
def Obligations.RoundStepsFollowTheirRules : Prop :=
  ∀ (A : Lanes) (x y : Nat), x < 5 → y < 5 →
    (theta A).at x y = A.at x y ^^^
      ((A.at ((x + 4) % 5) 0 ^^^ A.at ((x + 4) % 5) 1 ^^^ A.at ((x + 4) % 5) 2 ^^^ A.at ((x + 4) % 5) 3 ^^^
          A.at ((x + 4) % 5) 4) ^^^
        (A.at ((x + 1) % 5) 0 ^^^ A.at ((x + 1) % 5) 1 ^^^ A.at ((x + 1) % 5) 2 ^^^ A.at ((x + 1) % 5) 3 ^^^
          A.at ((x + 1) % 5) 4).rotateLeft 1) ∧
    (rho A).at x y = (A.at x y).rotateLeft (rotOffset x y) ∧
    (piStep A).at y ((2 * x + 3 * y) % 5) = A.at x y ∧
    (chi A).at x y = A.at x y ^^^ (~~~ A.at ((x + 1) % 5) y &&& A.at ((x + 2) % 5) y) ∧
    (∀ ir < 24, (iota ir A).at x y = if x = 0 ∧ y = 0 then A.at 0 0 ^^^ rcAt ir else A.at x y)

/-- R133, R134: the iota constants are the LFSR's bits at the places 2^j - 1, and the rho offsets are the triangular
numbers along the walk. -/
def Obligations.ConstantsAreGenerated : Prop :=
  (∀ ir < 24, ∀ b < 64, (rcAt ir).getLsbD b =
    (List.range 7).any fun j => b == 2 ^ j - 1 && lfsrBit (j + 7 * ir)) ∧
  rotAt 0 = 0 ∧
  (∀ t < 24, rotAt ((rotWalk t).1 + 5 * (rotWalk t).2) = (t + 1) * (t + 2) / 2 % 64)

/-- R132, its first claim: on every state of lanes, and so on every S, the W32I datapath computes what the reference
permutation does. -/
def Obligations.BothDatapathsComputeP : Prop :=
  (∀ A : Lanes, permuteW32I A = permuteW64 A) ∧
  (∀ (dp : Config.Datapath) (m : Memory), permuteBy dp m = keccakP m)

/-- R11: DATAPATH is fixed for the life of the instance, and no command but RDID can tell which one it has: on the other
datapath it has the same outcome. -/
def Obligations.OnlyRdidSeesTheDatapath : Prop :=
  (∀ s t : State, step s = .next t → t.datapath = s.datapath) ∧
  (∀ (i : Instr) (s : State) (dp : Config.Datapath), i ≠ .rdid →
    exec i { s with datapath := dp } = onDatapath dp (exec i s))

/-! ## The whole machine -/

/-- The invariants of a command boundary hold at reset, on either datapath. -/
def Obligations.ResetMeetsTheInvariants : Prop := ∀ dp : Config.Datapath, (State.resetOf dp).Inv

/-- Every step keeps the invariants: S in canonical form, the context row of R29, and the fault registers of R31, R32. -/
def Obligations.StepKeepsTheInvariants : Prop := ∀ s t : State, s.Inv → step s = .next t → t.Inv

/-- From a state that meets the invariants every step answers a next state (R78, R214): no command stops the model. -/
def Obligations.StepAnswersUnderTheInvariants : Prop := ∀ s : State, s.Inv → ∃ t, step s = .next t

/-- Runs (R240, R247): k steps from a state that meets the invariants always complete; they take the first k events and give
one response to each command among them that no reset cut short. That a step with nothing presented waits, and that a
reset keeps the two lists, is the model's reading (log entries 2 and 3). -/
def Obligations.RunsAnswerEveryCommand : Prop :=
  ∀ (k : Nat) (s : State), s.Inv → ∃ t, core.run k s = .next t ∧ t.Inv ∧ t.inbox = s.inbox.drop k ∧
    t.responses.length = s.responses.length + ((s.inbox.take k).filter fun e => !e.isReset).length

/-- R70, R21: a command that answers adds exactly one response after those given, and changes neither the commands still
to come nor DATAPATH; ok = 0 exactly when it faulted or FAULT was set and it is no read. -/
def Obligations.EveryCommandGivesOneResponse : Prop :=
  ∀ (i : Instr) (s t : State), exec i s = .next t →
    ∃ r : Response, t.responses = s.responses ++ [r] ∧ t.inbox = s.inbox ∧ t.datapath = s.datapath ∧
      (r.ok = false ↔ (s.fault = false ∧ t.fault = true) ∨ (s.fault = true ∧ ¬ InReadOnlySet i))

/-- The "writes" column of R74 over all commands: RATE and OUTLEN are written only by INIT and DISCARD (R26, R27); PHASE
and DOMAIN only by those and FINAL and XOF (R24, R28); POS also by ABSORB and SQUEEZE; S also by WRLANE and PERMUTE (R22);
PERM_COUNT only by the five commands that permute (R33). -/
def Obligations.RegistersHaveTheirWriters : Prop :=
  ∀ (i : Instr) (s t : State), exec i s = .next t →
    (i.op ∉ [.init, .discard] → t.rate = s.rate ∧ t.outlen = s.outlen) ∧
    (i.op ∉ [.init, .discard, .final, .xof] → t.phase = s.phase ∧ t.domain = s.domain) ∧
    (i.op ∉ [.init, .discard, .final, .xof, .absorb, .squeeze] → t.pos = s.pos) ∧
    (i.op ∉ [.init, .discard, .final, .xof, .absorb, .squeeze, .wrlane, .permute] → t.mem = s.mem) ∧
    (i.op ∉ [.final, .xof, .absorb, .squeeze, .permute] → t.permCount = s.permCount) ∧
    (s.fault = true → t.fault = true ∧ t.fcode = s.fcode ∧ t.fcmd = s.fcmd)

/-- R161, absorbing: any two ways to give a message in ABSORB commands of 0 to 8 bytes leave the same S, POS and
PERM_COUNT. -/
def Obligations.AbsorbingIsStreaming : Prop :=
  ∀ (s : State) (ps qs : List (Imm × Word)), s.Inv → s.fault = false → s.phase = .absorbing →
    (∀ p ∈ ps, p.1.toNat ≤ 8) → (∀ q ∈ qs, q.1.toNat ≤ 8) → messageOf ps = messageOf qs →
    ∃ t u, performAll (absorbCommands ps) s = .next t ∧ performAll (absorbCommands qs) s = .next u ∧
      t.mem = u.mem ∧ t.pos = u.pos ∧ t.permCount = u.permCount

/-- R161, squeezing: any two ways to read the same number of bytes in SQUEEZE commands of 0 to 8 bytes return the same
bytes in order, and leave the same S, POS and PERM_COUNT. -/
def Obligations.SqueezingIsStreaming : Prop :=
  ∀ (s : State) (ns ms : List Imm), s.Inv → s.fault = false → s.phase = .squeezing →
    (∀ n ∈ ns, n.toNat ≤ 8) → (∀ m ∈ ms, m.toNat ≤ 8) →
    (ns.map fun n => n.toNat).sum = (ms.map fun m => m.toNat).sum →
    ∃ t u rs qs, performAll (ns.map Instr.squeeze) s = .next t ∧ performAll (ms.map Instr.squeeze) s = .next u ∧
      t.responses = s.responses ++ rs ∧ u.responses = s.responses ++ qs ∧ rs.length = ns.length ∧
      qs.length = ms.length ∧ outputOf ns rs = outputOf ms qs ∧
      t.mem = u.mem ∧ t.pos = u.pos ∧ t.permCount = u.permCount

/-- R162: after INIT and RATE absorbed bytes, in whatever pieces, PERM_COUNT has risen by 1 and POS = 0; after RATE - 1
bytes it has not risen and POS = RATE - 1. -/
def Obligations.AFullBlockPermutesOnce : Prop :=
  ∀ (n : Imm) (s t : State) (ps : List (Imm × Word)), s.fault = false → n.toNat ∈ [16, 28, 32, 48, 64] →
    exec (.init n) s = .next t → (∀ p ∈ ps, p.1.toNat ≤ 8) →
    ((messageOf ps).length = 200 - 2 * n.toNat → ∃ u, performAll (absorbCommands ps) t = .next u ∧
      u.permCount = s.permCount + 1 ∧ u.pos = 0) ∧
    ((messageOf ps).length + 1 = 200 - 2 * n.toNat → ∃ u, performAll (absorbCommands ps) t = .next u ∧
      u.permCount = s.permCount ∧ u.pos.toNat + 1 = 200 - 2 * n.toNat)

/-- The sponge (R160, R163): INIT n, a message in any pieces, and FINAL leave in S the state of the sponge construction over
the message padded with 0x06 and 0x80; with XOF, with 0x1F and 0x80. -/
def Obligations.CommandsComputeTheSponge : Prop :=
  ∀ (n : Imm) (s : State) (ps : List (Imm × Word)), s.fault = false → n.toNat ∈ [16, 28, 32, 48, 64] →
    (∀ p ∈ ps, p.1.toNat ≤ 8) →
    let rate := 200 - 2 * n.toNat
    let msg := messageOf ps
    (∃ t, performAll ([.init n] ++ absorbCommands ps ++ [.final]) s = .next t ∧ t.phase = .final ∧
      t.mem = spongeBlocks 0x06 rate msg (msg.length / rate + 1)) ∧
    (∃ t, performAll ([.init n] ++ absorbCommands ps ++ [.xof]) s = .next t ∧ t.phase = .squeezing ∧
      t.mem = spongeBlocks 0x1F rate msg (msg.length / rate + 1))

/-- R56: the byte S[POS] that an ABSORB of one byte XORs, the block not ending there, is the byte RDLANE (POS div 8)
returns in bits 8(POS mod 8)+7 .. 8(POS mod 8), XORed with A[7:0]; its other bytes are as before. -/
def Obligations.ByteAndLaneViewsAgree : Prop :=
  ∀ (a : Word) (s t u v : State) (r q : Word), s.Inv → s.fault = false → s.phase = .absorbing →
    s.pos.toNat + 1 < s.rate.toNat → exec (.absorb 1 a) s = .next t →
    exec (.rdlane (BitVec.ofNat 8 (s.pos.toNat / 8))) s = .next u → u.responses = s.responses ++ [⟨true, r⟩] →
    exec (.rdlane (BitVec.ofNat 8 (s.pos.toNat / 8))) t = .next v → v.responses = t.responses ++ [⟨true, q⟩] →
    ∀ k < 8, byteAt q k = byteAt r k ^^^ (if k = s.pos.toNat % 8 then byteAt a 0 else 0)

/-! ## The pseudo-commands -/

/-- The first three rows of R81: ROL64 and ROL32 rotate left, and LOADSTATE in IDLE leaves the lanes it names. -/
def Obligations.PseudoRotatesAndLoads : Prop :=
  (∀ (n : Nat) (a : Word) (s : State), s.fault = false → ∃ rd : Word, AnswersOnly (Pseudo.rol64 n a) s rd ∧
    ∀ j < 64, rd.getLsbD ((j + n) % 64) = a.getLsbD j) ∧
  (∀ (n : Nat) (a : Word) (s : State), s.fault = false → ∃ rd : Word, AnswersOnly (Pseudo.rol32 n a) s rd ∧
    ∀ j < 32, rd.getLsbD ((j + n) % 32) = a.getLsbD j ∧ rd.getLsbD (32 + j) = false) ∧
  (∀ (v : Nat → Word) (s : State), s.fault = false → s.phase = .idle → s.mem.wf = true →
    ∃ t, performAll (Pseudo.loadState v) s = .next t ∧ t.phase = .idle ∧ t.mem.wf = true ∧
      ∀ i < 25, ∀ k < 8, t.mem.read (8 * i + k) = byteAt (v i) k)

/-- The SHA3 pseudo-command (R81, R163): every command completes, and the DIGEST results, in order, begin with the first
outputLen bytes of the sponge's state over the message padded with 0x06 and 0x80. -/
def Obligations.Sha3CommandsGiveTheDigest : Prop :=
  ∀ (n : Imm) (s : State) (msg : List Byte), s.fault = false → n.toNat ∈ [28, 32, 48, 64] →
    ∃ (t : State) (rs ds : List Response), performAll (Pseudo.sha3 n msg) s = .next t ∧
      t.responses = s.responses ++ rs ++ ds ∧ (∀ r ∈ rs ++ ds, r.ok = true) ∧ ds.length = (n.toNat + 7) / 8 ∧
      (resultBytes ds).take n.toNat = (List.range n.toNat).map
        (spongeBlocks 0x06 (200 - 2 * n.toNat) msg (msg.length / (200 - 2 * n.toNat) + 1)).read

/-- The SHAKE128 and SHAKE256 pseudo-commands (R81, R163): every command completes, and the SQUEEZE results, in order, are the
first L bytes of the output stream of the sponge over the message padded with 0x1F and 0x80. -/
def Obligations.ShakeCommandsGiveTheStream : Prop :=
  ∀ (s : State) (msg : List Byte) (len : Nat), s.fault = false →
    (∃ (t : State) (rs qs : List Response), performAll (Pseudo.shake128 msg len) s = .next t ∧
      t.responses = s.responses ++ rs ++ qs ∧ (∀ r ∈ rs ++ qs, r.ok = true) ∧
      outputOf (Pseudo.squeezeCounts len) qs = (List.range len).map
        (streamByte 168 (spongeBlocks 0x1F 168 msg (msg.length / 168 + 1)))) ∧
    (∃ (t : State) (rs qs : List Response), performAll (Pseudo.shake256 msg len) s = .next t ∧
      t.responses = s.responses ++ rs ++ qs ∧ (∀ r ∈ rs ++ qs, r.ok = true) ∧
      outputOf (Pseudo.squeezeCounts len) qs = (List.range len).map
        (streamByte 136 (spongeBlocks 0x1F 136 msg (msg.length / 136 + 1))))
end

