-- ==== Sys2Proof/Laws/Bits.lean ====
section
/-! SUPPORT. Laws/Bits.lean: the bits of each bit function, the packing of bytes in words, and how interleaving commutes
with the bitwise operations and with rotation (41_permutation.md R131, 40_primitives.md R105). -/

namespace Sys2Proof.Machine

/-! ## Words given bit by bit -/

theorem natOfBits_lt (f : Nat → Bool) (n : Nat) : natOfBits f n < 2 ^ n := by
  induction n with
  | zero => simp [natOfBits]
  | succ n ih => rw [natOfBits, pow_succ]; split <;> omega

theorem testBit_natOfBits (f : Nat → Bool) (n i : Nat) : (natOfBits f n).testBit i = (decide (i < n) && f i) := by
  induction n with
  | zero => simp [natOfBits]
  | succ n ih =>
    have hlt := natOfBits_lt f n
    rw [natOfBits]
    rcases Nat.lt_trichotomy i n with h | rfl | h
    · split
      · rw [Nat.add_comm, Nat.testBit_two_pow_add_gt h, ih]
        simp [h, Nat.lt_succ_of_lt h]
      · rw [Nat.add_zero, ih]; simp [h, Nat.lt_succ_of_lt h]
    · split
      · rename_i hf
        rw [Nat.add_comm, Nat.testBit_two_pow_add_eq, ih]; simp [hf]
      · rename_i hf
        rw [Nat.add_zero, ih]; simp [hf]
    · have hsum : natOfBits f n + (if f n then 2 ^ n else 0) < 2 ^ i := by
        have h1 : 2 ^ (n + 1) ≤ 2 ^ i := Nat.pow_le_pow_right (by omega) h
        rw [pow_succ] at h1
        split <;> omega
      rw [Nat.testBit_lt_two_pow hsum]
      simp [show ¬ i < n + 1 by omega]

theorem getLsbD_wordOfBits (w : Nat) (f : Nat → Bool) (i : Nat) :
    (wordOfBits w f).getLsbD i = (decide (i < w) && f i) := by
  rw [wordOfBits, BitVec.getLsbD_ofNat, testBit_natOfBits]
  by_cases h : i < w <;> simp [h]

/-! ## Bytes and words (R54, R55) -/

theorem getLsbD_byteOfWord (w : Word) (j i : Nat) :
    (byteOfWord w j).getLsbD i = (decide (i < 8) && w.getLsbD (8 * j + i)) := by
  simp [byteOfWord, BitVec.getLsbD_extractLsb']

theorem getLsbD_wordOfBytes (bs : List Byte) (i : Nat) :
    (wordOfBytes bs).getLsbD i = (decide (i < 64) && (bs.getD (i / 8) 0).getLsbD (i % 8)) := by
  induction bs generalizing i with
  | nil => simp [wordOfBytes]
  | cons b bs ih =>
    rw [wordOfBytes, BitVec.getLsbD_or, BitVec.getLsbD_setWidth, BitVec.getLsbD_shiftLeft, ih]
    by_cases h64 : i < 64
    · by_cases h8 : i < 8
      · simp [h64, h8, Nat.div_eq_of_lt h8, Nat.mod_eq_of_lt h8]
      · have h1 : i / 8 = (i - 8) / 8 + 1 := by omega
        have h2 : i % 8 = (i - 8) % 8 := by omega
        have h3 : b.getLsbD i = false := BitVec.getLsbD_of_ge b i (by omega)
        rw [h1, List.getD_cons_succ, h2, h3]
        simp [h64, h8, show i - 8 < 64 by omega]
    · simp [h64]

/-- Byte j of a packed word is the j-th byte of the list. -/
theorem byteOfWord_wordOfBytes (bs : List Byte) {j : Nat} (hj : j < 8) :
    byteOfWord (wordOfBytes bs) j = bs.getD j 0 := by
  apply BitVec.eq_of_getLsbD_eq
  intro i hi
  rw [getLsbD_byteOfWord, getLsbD_wordOfBytes, show (8 * j + i) / 8 = j by omega, show (8 * j + i) % 8 = i by omega]
  simp [hi, show 8 * j + i < 64 by omega]

/-- Two words with the same eight bytes are equal. -/
theorem word_ext_bytes {v w : Word} (h : ∀ j < 8, byteOfWord v j = byteOfWord w j) : v = w := by
  apply BitVec.eq_of_getLsbD_eq
  intro i hi
  have hb := congrArg (fun b => b.getLsbD (i % 8)) (h (i / 8) (by omega))
  simp only [getLsbD_byteOfWord, show 8 * (i / 8) + i % 8 = i by omega, show i % 8 < 8 by omega, decide_true,
    Bool.true_and] at hb
  exact hb

theorem getD_map_range {α : Type} (f : Nat → α) (d : α) (n i : Nat) :
    ((List.range n).map f).getD i d = if i < n then f i else d := by
  by_cases h : i < n
  · simp [h]
  · rw [if_neg h, List.getD_eq_default _ _ (by simpa using h)]

/-! ## Rotations (R16) -/

/-- Bit i of a left rotation comes from the bit n places below, modulo the width. -/
theorem getLsbD_rotl64 (x : Word) (n i : Nat) (hi : i < 64) :
    (rotl64 x n).getLsbD i = x.getLsbD ((i + (64 - n % 64)) % 64) := by
  rw [rotl64, BitVec.getLsbD_rotateLeft]
  by_cases h : i < n % 64
  · simp only [h, decide_true, cond_true]
    congr 1; omega
  · simp only [h, decide_false, cond_false, hi, decide_true, Bool.true_and]
    congr 1; omega

theorem getLsbD_rotl32 (x : Half) (n i : Nat) (hi : i < 32) :
    (rotl32 x n).getLsbD i = x.getLsbD ((i + (32 - n % 32)) % 32) := by
  rw [rotl32, BitVec.getLsbD_rotateLeft]
  by_cases h : i < n % 32
  · simp only [h, decide_true, cond_true]
    congr 1; omega
  · simp only [h, decide_false, cond_false, hi, decide_true, Bool.true_and]
    congr 1; omega

/-- Bit i of a right rotation comes from the bit n places above, modulo the width. -/
theorem getLsbD_rotr64 (x : Word) (n i : Nat) (hi : i < 64) :
    (rotr64 x n).getLsbD i = x.getLsbD ((i + n) % 64) := by
  rw [rotr64, BitVec.getLsbD_rotateRight]
  by_cases h : i < 64 - n % 64
  · simp only [h, decide_true, cond_true]
    congr 1; omega
  · simp only [h, decide_false, cond_false, hi, decide_true, Bool.true_and]
    congr 1; omega

theorem getLsbD_rotr32 (x : Half) (n i : Nat) (hi : i < 32) :
    (rotr32 x n).getLsbD i = x.getLsbD ((i + n) % 32) := by
  rw [rotr32, BitVec.getLsbD_rotateRight]
  by_cases h : i < 32 - n % 32
  · simp only [h, decide_true, cond_true]
    congr 1; omega
  · simp only [h, decide_false, cond_false, hi, decide_true, Bool.true_and]
    congr 1; omega

/-! ## Interleaving (R103, R104) -/

theorem getLsbD_evenHalf (x : Word) (i : Nat) :
    (evenHalf x).getLsbD i = (decide (i < 32) && x.getLsbD (2 * i)) := by
  rw [evenHalf, getLsbD_wordOfBits]

theorem getLsbD_oddHalf (x : Word) (i : Nat) :
    (oddHalf x).getLsbD i = (decide (i < 32) && x.getLsbD (2 * i + 1)) := by
  rw [oddHalf, getLsbD_wordOfBits]

theorem getLsbD_mergeHalves (e o : Half) (j : Nat) :
    (mergeHalves e o).getLsbD j =
      (decide (j < 64) && if j % 2 = 0 then e.getLsbD (j / 2) else o.getLsbD (j / 2)) := by
  rw [mergeHalves, getLsbD_wordOfBits]

theorem getLsbD_packPair (e o : Half) (j : Nat) :
    (packPair e o).getLsbD j = if j < 32 then e.getLsbD j else o.getLsbD (j - 32) := by
  rw [packPair, BitVec.getLsbD_append]

theorem getLsbD_pairEven (p : Word) (i : Nat) :
    (pairEven p).getLsbD i = (decide (i < 32) && p.getLsbD i) := by
  simp [pairEven, BitVec.getLsbD_extractLsb']

theorem getLsbD_pairOdd (p : Word) (i : Nat) :
    (pairOdd p).getLsbD i = (decide (i < 32) && p.getLsbD (32 + i)) := by
  simp [pairOdd, BitVec.getLsbD_extractLsb']

theorem pairEven_packPair (e o : Half) : pairEven (packPair e o) = e := by
  apply BitVec.eq_of_getLsbD_eq; intro i hi
  rw [getLsbD_pairEven, getLsbD_packPair]
  simp [hi]

theorem pairOdd_packPair (e o : Half) : pairOdd (packPair e o) = o := by
  apply BitVec.eq_of_getLsbD_eq; intro i hi
  rw [getLsbD_pairOdd, getLsbD_packPair]
  simp [hi]

theorem packPair_halves (p : Word) : packPair (pairEven p) (pairOdd p) = p := by
  apply BitVec.eq_of_getLsbD_eq; intro i hi
  rw [getLsbD_packPair, getLsbD_pairEven, getLsbD_pairOdd]
  by_cases h : i < 32
  · simp [h]
  · simp [h, show i - 32 < 32 by omega, show 32 + (i - 32) = i by omega]

theorem mergeHalves_halves (x : Word) : mergeHalves (evenHalf x) (oddHalf x) = x := by
  apply BitVec.eq_of_getLsbD_eq; intro i hi
  rw [getLsbD_mergeHalves, getLsbD_evenHalf, getLsbD_oddHalf]
  by_cases h : i % 2 = 0
  · simp [h, hi, show i / 2 < 32 by omega, show 2 * (i / 2) = i by omega]
  · simp [h, hi, show i / 2 < 32 by omega, show 2 * (i / 2) + 1 = i by omega]

theorem evenHalf_mergeHalves (e o : Half) : evenHalf (mergeHalves e o) = e := by
  apply BitVec.eq_of_getLsbD_eq; intro i hi
  rw [getLsbD_evenHalf, getLsbD_mergeHalves]
  simp [hi, show 2 * i < 64 by omega]

theorem oddHalf_mergeHalves (e o : Half) : oddHalf (mergeHalves e o) = o := by
  apply BitVec.eq_of_getLsbD_eq; intro i hi
  rw [getLsbD_oddHalf, getLsbD_mergeHalves]
  simp [hi, show 2 * i + 1 < 64 by omega, show (2 * i + 1) / 2 = i by omega, show (2 * i + 1) % 2 = 1 by omega]

/-- Un-interleaving undoes interleaving, for every word (R104). -/
@[simp] theorem uninterleave_interleave (x : Word) : uninterleave (interleave x) = x := by
  rw [uninterleave, interleave, pairEven_packPair, pairOdd_packPair, mergeHalves_halves]

/-- Interleaving undoes un-interleaving, for every word (R104). -/
@[simp] theorem interleave_uninterleave (p : Word) : interleave (uninterleave p) = p := by
  rw [uninterleave, interleave, evenHalf_mergeHalves, oddHalf_mergeHalves, packPair_halves]

/-! ## The halves of a result (R131) -/

theorem evenHalf_zero : evenHalf 0 = 0 := by decide

theorem oddHalf_zero : oddHalf 0 = 0 := by decide

theorem evenHalf_xor (x y : Word) : evenHalf (x ^^^ y) = evenHalf x ^^^ evenHalf y := by
  apply BitVec.eq_of_getLsbD_eq; intro i hi
  simp only [getLsbD_evenHalf, BitVec.getLsbD_xor, hi, decide_true, Bool.true_and]

theorem oddHalf_xor (x y : Word) : oddHalf (x ^^^ y) = oddHalf x ^^^ oddHalf y := by
  apply BitVec.eq_of_getLsbD_eq; intro i hi
  simp only [getLsbD_oddHalf, BitVec.getLsbD_xor, hi, decide_true, Bool.true_and]

theorem evenHalf_andNot (x y : Word) : evenHalf (andNot x y) = andNot (evenHalf x) (evenHalf y) := by
  apply BitVec.eq_of_getLsbD_eq; intro i hi
  simp only [andNot, getLsbD_evenHalf, BitVec.getLsbD_and, BitVec.getLsbD_not, hi, show 2 * i < 64 by omega,
    decide_true, Bool.true_and]

theorem oddHalf_andNot (x y : Word) : oddHalf (andNot x y) = andNot (oddHalf x) (oddHalf y) := by
  apply BitVec.eq_of_getLsbD_eq; intro i hi
  simp only [andNot, getLsbD_oddHalf, BitVec.getLsbD_and, BitVec.getLsbD_not, hi, show 2 * i + 1 < 64 by omega,
    decide_true, Bool.true_and]

/-- The interleaved rotate is the 64-bit rotate seen on the halves (R105). -/
theorem rotatePair_halves (x : Word) (n : Nat) :
    rotatePair (evenHalf x) (oddHalf x) n = (evenHalf (rotl64 x n), oddHalf (rotl64 x n)) := by
  have hk : n % 64 / 2 < 32 := by omega
  rw [rotatePair]
  by_cases h : n % 64 % 2 = 0
  · simp only [h, if_true]
    refine Prod.ext ?_ ?_
    · apply BitVec.eq_of_getLsbD_eq; intro i hi
      rw [getLsbD_rotl32 _ _ _ hi, getLsbD_evenHalf, getLsbD_evenHalf, getLsbD_rotl64 _ _ _ (by omega)]
      simp only [hi, decide_true, Bool.true_and, Nat.mod_lt _ (show 32 > 0 by omega)]
      congr 1; omega
    · apply BitVec.eq_of_getLsbD_eq; intro i hi
      rw [getLsbD_rotl32 _ _ _ hi, getLsbD_oddHalf, getLsbD_oddHalf, getLsbD_rotl64 _ _ _ (by omega)]
      simp only [hi, decide_true, Bool.true_and, Nat.mod_lt _ (show 32 > 0 by omega)]
      congr 1; omega
  · simp only [h, if_false]
    refine Prod.ext ?_ ?_
    · apply BitVec.eq_of_getLsbD_eq; intro i hi
      rw [getLsbD_rotl32 _ _ _ hi, getLsbD_evenHalf, getLsbD_oddHalf, getLsbD_rotl64 _ _ _ (by omega)]
      simp only [hi, decide_true, Bool.true_and, Nat.mod_lt _ (show 32 > 0 by omega)]
      congr 1; omega
    · apply BitVec.eq_of_getLsbD_eq; intro i hi
      rw [getLsbD_rotl32 _ _ _ hi, getLsbD_evenHalf, getLsbD_oddHalf, getLsbD_rotl64 _ _ _ (by omega)]
      simp only [hi, decide_true, Bool.true_and, Nat.mod_lt _ (show 32 > 0 by omega)]
      congr 1; omega

end Sys2Proof.Machine
end

