-- ==== Sys2Proof/Laws/Decode.lean ====
section
/-! SUPPORT. Laws/Decode.lean: the fields of a command word as numbers and of an encoded one (30_encoding.md R71), the opcode
map in both directions (R74), and the ways a decode ends (60_exceptions.md R211). -/

namespace Sys2Proof

/-! ## Fields of a command word -/

theorem CmdWord.toNat_op (c : CmdWord) : (CmdWord.op c).toNat = c.toNat / 2 ^ 24 := by
  have := c.isLt
  rw [CmdWord.op, BitVec.extractLsb'_toNat, Nat.shiftRight_eq_div_pow]
  omega

theorem CmdWord.toNat_rsv (c : CmdWord) : (CmdWord.rsv c).toNat = c.toNat / 2 ^ 8 % 2 ^ 16 := by
  rw [CmdWord.rsv, BitVec.extractLsb'_toNat, Nat.shiftRight_eq_div_pow]

theorem CmdWord.toNat_imm (c : CmdWord) : (CmdWord.imm c).toNat = c.toNat % 2 ^ 8 := by
  rw [CmdWord.imm, BitVec.extractLsb'_toNat, Nat.shiftRight_eq_div_pow, Nat.pow_zero, Nat.div_one]

theorem CmdWord.rsv_eq_zero (c : CmdWord) : CmdWord.rsv c = 0 ↔ c.toNat / 2 ^ 8 % 2 ^ 16 = 0 := by
  rw [← BitVec.toNat_inj, CmdWord.toNat_rsv]; rfl

/-- A command word is its three fields. -/
theorem CmdWord.eq_fields (c : CmdWord) : c = (CmdWord.op c ++ CmdWord.rsv c ++ CmdWord.imm c : BitVec 32) := by
  apply BitVec.eq_of_getLsbD_eq
  intro k hk
  simp only [CmdWord.op, CmdWord.rsv, CmdWord.imm, BitVec.getLsbD_append, BitVec.getLsbD_extractLsb']
  by_cases h1 : k < 8
  · simp [h1]
  · rw [if_neg h1]
    by_cases h2 : k - 8 < 16
    · rw [if_pos h2]
      simp only [h2, decide_true, Bool.true_and]
      congr 1; omega
    · rw [if_neg h2]
      simp only [show k - 8 - 16 < 8 by omega, decide_true, Bool.true_and]
      congr 1; omega

/-- The fields of an encoded instruction's command word. -/
theorem Instr.cmdWord_fields (i : Instr) :
    CmdWord.op i.cmdWord = i.op.code ∧ CmdWord.rsv i.cmdWord = 0 ∧ CmdWord.imm i.cmdWord = i.imm := by
  refine ⟨?_, ?_, ?_⟩ <;> apply BitVec.eq_of_getLsbD_eq <;> intro k hk
  · simp only [CmdWord.op, Instr.cmdWord, BitVec.getLsbD_extractLsb', BitVec.getLsbD_append]
    rw [if_neg (by omega), if_neg (by omega)]
    simp only [hk, decide_true, Bool.true_and]
    congr 1; omega
  · simp only [CmdWord.rsv, Instr.cmdWord, BitVec.getLsbD_extractLsb', BitVec.getLsbD_append]
    rw [if_neg (by omega), if_pos (by omega)]
    simp
  · simp only [CmdWord.imm, Instr.cmdWord, BitVec.getLsbD_extractLsb', BitVec.getLsbD_append]
    rw [if_pos (by omega)]
    simp [hk]

/-! ## The opcode map -/

theorem Op.ofCode_code (o : Op) : Op.ofCode o.code = some o := by cases o <;> decide

theorem Op.code_of_ofCode {c : BitVec 8} {o : Op} (h : Op.ofCode c = some o) : c = o.code := by
  unfold Op.ofCode at h
  split at h <;> simp at h <;> subst h <;> rfl

@[simp] theorem Op.op_instr (o : Op) (imm : Imm) (a b : Word) : (o.instr imm a b).op = o := by cases o <;> rfl

/-- An instruction is its opcode, its immediate and its operand words. -/
theorem Instr.instr_fields (i : Instr) : i.op.instr i.imm i.operandA i.operandB = i := by cases i <;> rfl

/-- A legal immediate is the immediate of the instruction made from it: an opcode that drops its immediate admits 0 only. -/
theorem Op.imm_instr {o : Op} {imm : Imm} (h : immCheck o imm = .none) (a b : Word) : (o.instr imm a b).imm = imm := by
  cases o <;> first
    | rfl
    | (simp only [immCheck, codeUnless] at h
       split at h <;> simp_all [Op.instr, Instr.imm])

/-! ## How a decode ends -/

theorem decode_reserved {t : Transaction} (h : Op.ofCode t.cmd.op = none) : decode t = .error .illegalOp := by
  simp [decode, h]

theorem decode_rsv {t : Transaction} {o : Op} (h : Op.ofCode t.cmd.op = some o) (hr : t.cmd.rsv ≠ 0) :
    decode t = .error .rsvNonzero := by
  simp only [decode, staticCheck, h]
  rw [if_neg hr]

theorem decode_imm {t : Transaction} {o : Op} (h : Op.ofCode t.cmd.op = some o) (hr : t.cmd.rsv = 0)
    (hi : immCheck o t.cmd.imm ≠ .none) : decode t = .error (immCheck o t.cmd.imm) := by
  simp only [decode, staticCheck, h]
  rw [if_pos hr]
  split
  · contradiction
  · rfl

theorem decode_legal {t : Transaction} {o : Op} (h : Op.ofCode t.cmd.op = some o) (hr : t.cmd.rsv = 0)
    (hi : immCheck o t.cmd.imm = .none) : decode t = .ok (o.instr t.cmd.imm t.a t.b) := by
  simp only [decode, staticCheck, h]
  rw [if_pos hr, hi]

/-- The immediate check gives BAD_IMM, BAD_OUTLEN for INIT, or no code (R203, R204). -/
theorem immCheck_codes (o : Op) (imm : Imm) :
    immCheck o imm = .none ∨ immCheck o imm = .badImm ∨ immCheck o imm = .badOutlen := by
  cases o <;> simp only [immCheck, codeUnless] <;> (try split) <;> simp

/-- A decode that succeeds: an assigned opcode, a zero reserved field, and a legal immediate. -/
theorem decode_ok {t : Transaction} {i : Instr} (h : decode t = .ok i) :
    ∃ o, Op.ofCode t.cmd.op = some o ∧ t.cmd.rsv = 0 ∧ immCheck o t.cmd.imm = .none ∧
      i = o.instr t.cmd.imm t.a t.b := by
  cases ho : Op.ofCode t.cmd.op with
  | none => rw [decode_reserved ho] at h; cases h
  | some o =>
    by_cases hr : t.cmd.rsv = 0
    · by_cases hi : immCheck o t.cmd.imm = .none
      · rw [decode_legal ho hr hi] at h
        exact ⟨o, rfl, hr, hi, by cases h; rfl⟩
      · rw [decode_imm ho hr hi] at h; cases h
    · rw [decode_rsv ho hr] at h; cases h

end Sys2Proof
end

