-- ==== Sys2Proof/Laws/Memory.lean ====
section
/-! SUPPORT. Laws/Memory.lean: the laws of one byte of S: what a write and a build leave at every address, that each
keeps the canonical form, and that two arrays in canonical form with the same bytes are equal. -/

namespace Sys2Proof.Machine

@[simp] theorem Memory.read_nil (a : Nat) : Memory.read [] a = 0 := rfl

theorem Memory.read_cons (c : Host.Cell) (m : Memory) (a : Nat) :
    Memory.read (c :: m) a = if c.1 = a then c.2 else m.read a := rfl

theorem Memory.wf_nil : Memory.wf [] = true := rfl

theorem Memory.wf_cons (c : Host.Cell) (m : Memory) :
    Memory.wf (c :: m) = true ↔ c.1 < 200 ∧ c.2 ≠ 0 ∧ (∀ d ∈ m, c.1 < d.1) ∧ m.wf = true := by
  simp [Memory.wf, and_assoc]

/-- Below every listed address nothing is listed. -/
theorem Memory.read_below {m : Memory} {a : Nat} (h : ∀ d ∈ m, a < d.1) : m.read a = 0 := by
  induction m with
  | nil => rfl
  | cons c m ih =>
    have hc : a < c.1 := h c (by simp)
    rw [Memory.read_cons, if_neg (by omega), ih fun d hd => h d (by simp [hd])]

/-- Outside S nothing is listed. -/
theorem Memory.read_outside {m : Memory} (h : m.wf = true) {a : Nat} (ha : 200 ≤ a) : m.read a = 0 := by
  induction m with
  | nil => rfl
  | cons c m ih =>
    rw [Memory.wf_cons] at h
    rw [Memory.read_cons, if_neg (by omega), ih h.2.2.2]

/-- Every address a write lists was listed before, or is the one written. -/
theorem Memory.mem_write {m : Memory} {a : Nat} {b : Byte} {d : Host.Cell} (h : d ∈ m.write a b) :
    d ∈ m ∨ d = (a, b) := by
  induction m with
  | nil =>
    rw [Memory.write] at h
    split at h <;> simp_all
  | cons c m ih =>
    rw [Memory.write] at h
    split at h
    · split at h <;> simp_all; tauto
    · split at h
      · split at h <;> simp_all
        tauto
      · rcases List.mem_cons.mp h with h | h
        · simp [h]
        · rcases ih h with h | h <;> simp [h]

/-- A write keeps the canonical form. -/
theorem Memory.wf_write {m : Memory} (h : m.wf = true) {a : Nat} (ha : a < 200) (b : Byte) :
    (m.write a b).wf = true := by
  induction m with
  | nil =>
    rw [Memory.write]
    split
    · rfl
    · rename_i hb
      exact (Memory.wf_cons _ _).2 ⟨ha, hb, by simp, rfl⟩
  | cons c m ih =>
    have hc := (Memory.wf_cons c m).1 h
    rw [Memory.write]
    split
    · rename_i hlt
      split
      · exact h
      · rename_i hb
        refine (Memory.wf_cons _ _).2 ⟨ha, hb, ?_, h⟩
        intro d hd
        rcases List.mem_cons.mp hd with rfl | hd
        · exact hlt
        · exact Nat.lt_trans hlt (hc.2.2.1 d hd)
    · split
      · rename_i heq
        split
        · exact hc.2.2.2
        · rename_i hb
          exact (Memory.wf_cons _ _).2 ⟨ha, hb, fun d hd => by have := hc.2.2.1 d hd; simp only; omega, hc.2.2.2⟩
      · refine (Memory.wf_cons _ _).2 ⟨hc.1, hc.2.1, ?_, ih hc.2.2.2⟩
        intro d hd
        rcases Memory.mem_write hd with hd | rfl
        · exact hc.2.2.1 d hd
        · simp only; omega

/-- A write gives the byte written at its own address and leaves every other address alone. -/
theorem Memory.read_write {m : Memory} (h : m.wf = true) (a a' : Nat) (b : Byte) :
    (m.write a b).read a' = if a' = a then b else m.read a' := by
  induction m with
  | nil =>
    rw [Memory.write]
    split
    · rename_i hb; simp [hb]
    · rw [Memory.read_cons]; split <;> split <;> simp_all
  | cons c m ih =>
    have hc := (Memory.wf_cons c m).1 h
    have hnone : ∀ {x : Nat}, x ≤ c.1 → Memory.read m x = 0 := fun hx =>
      Memory.read_below fun d hd => Nat.lt_of_le_of_lt hx (hc.2.2.1 d hd)
    rw [Memory.write]
    split
    · rename_i hlt
      split
      · rename_i hb
        split
        · rename_i he
          rw [Memory.read_cons, if_neg (by omega), hnone (by omega), hb]
        · rfl
      · rw [Memory.read_cons]
        by_cases he : a = a' <;> simp [he, eq_comm]
    · split
      · rename_i heq
        split
        · rename_i hb
          rw [Memory.read_cons]
          by_cases he : a' = a
          · simp [he, hb, hnone (Nat.le_of_eq heq)]
          · rw [if_neg he, if_neg (by omega)]
        · rw [Memory.read_cons, Memory.read_cons]
          by_cases he : a' = a
          · simp [he]
          · simp [he, show ¬ c.1 = a' by omega, show ¬ a = a' by omega]
      · rw [Memory.read_cons, Memory.read_cons, ih hc.2.2.2]
        split <;> split <;> simp_all

/-- Two arrays in canonical form that read the same at all 200 addresses are the same list. -/
theorem Memory.ext_read {m m' : Memory} (h : m.wf = true) (h' : m'.wf = true)
    (hr : ∀ a < 200, m.read a = m'.read a) : m = m' := by
  have hall : ∀ a, m.read a = m'.read a := fun a => by
    by_cases ha : a < 200
    · exact hr a ha
    · rw [Memory.read_outside h (by omega), Memory.read_outside h' (by omega)]
  clear hr
  induction m generalizing m' with
  | nil =>
    cases m' with
    | nil => rfl
    | cons c m' =>
      have := hall c.1
      rw [Memory.read_cons, if_pos rfl] at this
      exact absurd this.symm ((Memory.wf_cons _ _).1 h').2.1
  | cons c m ih =>
    cases m' with
    | nil =>
      have := hall c.1
      rw [Memory.read_cons, if_pos rfl] at this
      exact absurd this ((Memory.wf_cons _ _).1 h).2.1
    | cons c' m' =>
      have hc := (Memory.wf_cons _ _).1 h
      have hc' := (Memory.wf_cons _ _).1 h'
      have hlow : ∀ {x : Nat}, x ≤ c.1 → Memory.read m x = 0 := fun hx =>
        Memory.read_below fun d hd => Nat.lt_of_le_of_lt hx (hc.2.2.1 d hd)
      have hlow' : ∀ {x : Nat}, x ≤ c'.1 → Memory.read m' x = 0 := fun hx =>
        Memory.read_below fun d hd => Nat.lt_of_le_of_lt hx (hc'.2.2.1 d hd)
      have haddr : c.1 = c'.1 := by
        rcases Nat.lt_trichotomy c.1 c'.1 with hlt | heq | hgt
        · have := hall c.1
          rw [Memory.read_cons, if_pos rfl, Memory.read_cons, if_neg (by omega), hlow' (by omega)] at this
          exact absurd this hc.2.1
        · exact heq
        · have := hall c'.1
          rw [Memory.read_cons, if_neg (by omega), hlow (by omega), Memory.read_cons, if_pos rfl] at this
          exact absurd this.symm hc'.2.1
      have hbyte : c.2 = c'.2 := by
        have := hall c.1
        rwa [Memory.read_cons, if_pos rfl, Memory.read_cons, if_pos haddr.symm] at this
      have hrest : m = m' := ih hc.2.2.2 hc'.2.2.2 fun a => by
        by_cases ha : a = c.1
        · rw [hlow (by omega), hlow' (by omega)]
        · have := hall a
          rwa [Memory.read_cons, if_neg (by omega), Memory.read_cons, if_neg (by omega)] at this
      rw [Prod.ext haddr hbyte, hrest]

/-! ## Building an array from its bytes -/

/-- The entries of `build` over any strictly rising list of addresses. -/
theorem Memory.build_aux (f : Nat → Byte) (l : List Nat) (hl : l.Pairwise (· < ·)) (hb : ∀ a ∈ l, a < 200) :
    Memory.wf (l.filterMap (Memory.entry f)) = true ∧
    (∀ a, Memory.read (l.filterMap (Memory.entry f)) a = if a ∈ l then f a else 0) ∧
    (∀ d ∈ l.filterMap (Memory.entry f), d.1 ∈ l) := by
  induction l with
  | nil => exact ⟨rfl, by simp, by simp⟩
  | cons x l ih =>
    obtain ⟨hx, hl⟩ := List.pairwise_cons.1 hl
    obtain ⟨ihw, ihr, iha⟩ := ih hl fun a ha => hb a (by simp [ha])
    by_cases hz : f x = Config.blankByte
    · rw [List.filterMap_cons_none (by simp [Memory.entry, hz])]
      refine ⟨ihw, fun a => ?_, fun d hd => by simp [iha d hd]⟩
      rw [ihr]
      by_cases hax : a = x
      · subst hax; simp [show a ∉ l from fun h => Nat.lt_irrefl _ (hx a h), hz]
      · simp [hax]
    · have he : Memory.entry f x = some (x, f x) := if_neg hz
      rw [List.filterMap_cons_some he]
      refine ⟨(Memory.wf_cons (x, f x) _).2 ⟨hb x (by simp), hz, fun d hd => hx _ (iha d hd), ihw⟩, fun a => ?_, ?_⟩
      · rw [Memory.read_cons, ihr]
        by_cases hax : x = a
        · subst hax; simp
        · simp [hax, Ne.symm hax]
      · intro d hd
        rcases List.mem_cons.1 hd with rfl | hd
        · simp
        · simp [iha d hd]

theorem Memory.wf_build (f : Nat → Byte) : (Memory.build f).wf = true :=
  (Memory.build_aux f (List.range Config.stateBytes) List.pairwise_lt_range (by simp)).1

@[simp] theorem Memory.read_build (f : Nat → Byte) (a : Nat) :
    (Memory.build f).read a = if a < 200 then f a else 0 := by
  have := (Memory.build_aux f (List.range Config.stateBytes) List.pairwise_lt_range (by simp)).2.1 a
  simpa [Memory.build] using this

/-! ## Runs of bytes -/

theorem Memory.wf_writeBytes (bs : List Byte) {m : Memory} (h : m.wf = true) {j : Nat} (hj : j + bs.length ≤ 200) :
    (m.writeBytes j bs).wf = true := by
  induction bs generalizing m j with
  | nil => exact h
  | cons b bs ih =>
    simp only [List.length_cons] at hj
    exact ih (Memory.wf_write h (by omega) b) (by omega)

/-- Consecutive writes give each byte at its address and leave every other address alone. -/
theorem Memory.read_writeBytes (bs : List Byte) {m : Memory} (h : m.wf = true) {j : Nat} (hj : j + bs.length ≤ 200)
    (a : Nat) :
    (m.writeBytes j bs).read a = if j ≤ a ∧ a < j + bs.length then bs.getD (a - j) 0 else m.read a := by
  induction bs generalizing m j with
  | nil =>
    rw [Memory.writeBytes, if_neg (by simp)]
  | cons b bs ih =>
    simp only [List.length_cons] at hj ⊢
    rw [Memory.writeBytes, ih (Memory.wf_write h (by omega) b) (by omega), Memory.read_write h]
    by_cases h1 : a = j
    · subst h1
      rw [if_neg (by omega), if_pos rfl, if_pos (by omega)]
      simp
    · by_cases h2 : j + 1 ≤ a ∧ a < j + 1 + bs.length
      · rw [if_pos h2, if_pos (by omega), show a - j = (a - (j + 1)) + 1 by omega, List.getD_cons_succ]
      · rw [if_neg h2, if_neg h1, if_neg (by omega)]

/-! ## The operations that reach S -/

/-- The bytes below 200 exist, and no other. -/
theorem readByte_ok (m : Memory) {j : Nat} (hj : j < 200) : readByte m j = .ok (m.read j) := by
  simp [readByte, hj]

theorem xorByte_ok (m : Memory) {j : Nat} (hj : j < 200) (b : Byte) :
    xorByte m j b = .ok (m.write j (m.read j ^^^ b)) := by
  simp [xorByte, hj]

theorem memRead_ok (m : Memory) {j n : Nat} (h : j + n ≤ 200) : memRead m j n = .ok (m.word j n) := by
  simp [memRead, h]

theorem memWrite_ok (m : Memory) {j n : Nat} (h : j + n ≤ 200) (v : Word) :
    memWrite m j n v = .ok (m.writeBytes j ((List.range n).map (byteOfWord v))) := by
  simp [memWrite, h]

/-- A byte XORed in: it changes that byte alone. -/
theorem read_xor {m : Memory} (h : m.wf = true) (j a : Nat) (b : Byte) :
    (m.write j (m.read j ^^^ b)).read a = m.read a ^^^ (if a = j then b else 0) := by
  rw [Memory.read_write h]
  by_cases ha : a = j
  · simp [ha]
  · simp [ha]

end Sys2Proof.Machine
end

