-- ==== Sys2Proof/Laws/Lanes.lean ====
section
/-! SUPPORT. Laws/Lanes.lean: the lanes of each round step, one lemma a step (41_permutation.md R121 to R125), and the
passage between the 200 bytes of S and its 25 lanes (R120). -/

namespace Sys2Proof.Machine

@[simp] theorem Lanes.get_build (f : Nat → Word) (i : Nat) :
    (Lanes.build f).get i = if i < 25 then f i else 0 :=
  getD_map_range f 0 25 i

/-- Two lists of lanes built from functions that agree below 25 are equal. -/
theorem Lanes.build_congr {f g : Nat → Word} (h : ∀ i < 25, f i = g i) : Lanes.build f = Lanes.build g :=
  List.map_congr_left fun i hi => h i (List.mem_range.1 hi)

theorem get_theta (A : Lanes) {i : Nat} (hi : i < 25) :
    (theta A).get i =
      A.get i ^^^ (columnParity A ((i % 5 + 4) % 5) ^^^ rotl64 (columnParity A ((i % 5 + 1) % 5)) 1) := by
  have h5 : ∀ x, x % 5 < 5 := fun x => Nat.mod_lt x (by omega)
  simp only [theta, Lanes.get_build, hi, if_true, getD_map_range, h5]

theorem get_rho (A : Lanes) {i : Nat} (hi : i < 25) : (rho A).get i = rotl64 (A.get i) (rotAt i) := by
  simp [rho, hi]

theorem get_piStep (A : Lanes) {j : Nat} (hj : j < 25) : (piStep A).get j = A.get (piSource j) := by
  simp [piStep, hj]

theorem get_chi (A : Lanes) {i : Nat} (hi : i < 25) :
    (chi A).get i = A.get i ^^^ andNot (A.get (rowNeighbour i 1)) (A.get (rowNeighbour i 2)) := by
  simp [chi, hi]

theorem get_iota (ir : Nat) (A : Lanes) {i : Nat} (hi : i < 25) :
    (iota ir A).get i = if i = 0 then A.get 0 ^^^ rcAt ir else A.get i := by
  simp [iota, hi]

theorem piSource_lt (j : Nat) : piSource j < 25 := by
  unfold piSource; omega

theorem rowNeighbour_lt {i : Nat} (hi : i < 25) (k : Nat) : rowNeighbour i k < 25 := by
  unfold rowNeighbour; omega

/-! ## S as lanes -/

/-- Byte k of the word of n bytes from j on. -/
theorem byteOfWord_word (m : Memory) (j n k : Nat) (hk : k < 8) :
    byteOfWord (m.word j n) k = if k < n then m.read (j + k) else 0 := by
  rw [Memory.word, byteOfWord_wordOfBytes _ hk, getD_map_range]

theorem get_lanesOf (m : Memory) {i : Nat} (hi : i < 25) : (lanesOf m).get i = m.word (8 * i) 8 := by
  simp [lanesOf, hi]

theorem read_memoryOf (A : Lanes) (a : Nat) :
    (memoryOf A).read a = if a < 200 then byteOfWord (A.get (a / 8)) (a % 8) else 0 := by
  rw [memoryOf, Memory.read_build]

theorem wf_memoryOf (A : Lanes) : (memoryOf A).wf = true := Memory.wf_build _

/-- Writing the lanes back and reading them again gives the lanes (R120). -/
theorem get_lanesOf_memoryOf (A : Lanes) {i : Nat} (hi : i < 25) : (lanesOf (memoryOf A)).get i = A.get i := by
  rw [get_lanesOf _ hi]
  apply word_ext_bytes
  intro j hj
  rw [byteOfWord_word _ _ _ _ hj, if_pos hj, read_memoryOf, if_pos (by omega)]
  rw [show (8 * i + j) / 8 = i by omega, show (8 * i + j) % 8 = j by omega]

/-- P(S) is an array in canonical form, on either datapath. -/
theorem wf_permuteBy (dp : Config.Datapath) (m : Memory) : (permuteBy dp m).wf = true := by
  cases dp <;> exact wf_memoryOf _

end Sys2Proof.Machine
end

