-- ==== Sys2Proof/Laws/State.lean ====
section
/-! SUPPORT. Laws/State.lean: for each named update of the state, what each field is after it (one lemma a field, true by
unfolding), so that no later proof unfolds a record update. -/

namespace Sys2Proof.Machine

/-! ## respond -/

@[simp] theorem respond_mem (ok : Bool) (rd : Word) (s : State) : (respond ok rd s).mem = s.mem := rfl
@[simp] theorem respond_phase (ok : Bool) (rd : Word) (s : State) : (respond ok rd s).phase = s.phase := rfl
@[simp] theorem respond_pos (ok : Bool) (rd : Word) (s : State) : (respond ok rd s).pos = s.pos := rfl
@[simp] theorem respond_rate (ok : Bool) (rd : Word) (s : State) : (respond ok rd s).rate = s.rate := rfl
@[simp] theorem respond_outlen (ok : Bool) (rd : Word) (s : State) : (respond ok rd s).outlen = s.outlen := rfl
@[simp] theorem respond_domain (ok : Bool) (rd : Word) (s : State) : (respond ok rd s).domain = s.domain := rfl
@[simp] theorem respond_fault (ok : Bool) (rd : Word) (s : State) : (respond ok rd s).fault = s.fault := rfl
@[simp] theorem respond_fcode (ok : Bool) (rd : Word) (s : State) : (respond ok rd s).fcode = s.fcode := rfl
@[simp] theorem respond_fcmd (ok : Bool) (rd : Word) (s : State) : (respond ok rd s).fcmd = s.fcmd := rfl
@[simp] theorem respond_permCount (ok : Bool) (rd : Word) (s : State) : (respond ok rd s).permCount = s.permCount := rfl
@[simp] theorem respond_datapath (ok : Bool) (rd : Word) (s : State) : (respond ok rd s).datapath = s.datapath := rfl
@[simp] theorem respond_inbox (ok : Bool) (rd : Word) (s : State) : (respond ok rd s).inbox = s.inbox := rfl
@[simp] theorem respond_responses (ok : Bool) (rd : Word) (s : State) : (respond ok rd s).responses = s.responses ++ [⟨ok, rd⟩] := rfl

/-! ## refuse -/

@[simp] theorem refuse_mem (s : State) : (refuse s).mem = s.mem := rfl
@[simp] theorem refuse_phase (s : State) : (refuse s).phase = s.phase := rfl
@[simp] theorem refuse_pos (s : State) : (refuse s).pos = s.pos := rfl
@[simp] theorem refuse_rate (s : State) : (refuse s).rate = s.rate := rfl
@[simp] theorem refuse_outlen (s : State) : (refuse s).outlen = s.outlen := rfl
@[simp] theorem refuse_domain (s : State) : (refuse s).domain = s.domain := rfl
@[simp] theorem refuse_fault (s : State) : (refuse s).fault = s.fault := rfl
@[simp] theorem refuse_fcode (s : State) : (refuse s).fcode = s.fcode := rfl
@[simp] theorem refuse_fcmd (s : State) : (refuse s).fcmd = s.fcmd := rfl
@[simp] theorem refuse_permCount (s : State) : (refuse s).permCount = s.permCount := rfl
@[simp] theorem refuse_datapath (s : State) : (refuse s).datapath = s.datapath := rfl
@[simp] theorem refuse_inbox (s : State) : (refuse s).inbox = s.inbox := rfl
@[simp] theorem refuse_responses (s : State) : (refuse s).responses = s.responses ++ [⟨false, 0⟩] := rfl

/-! ## raiseFault -/

@[simp] theorem raiseFault_mem (cmd : CmdWord) (f : FaultCode) (s : State) : (raiseFault cmd f s).mem = s.mem := rfl
@[simp] theorem raiseFault_phase (cmd : CmdWord) (f : FaultCode) (s : State) : (raiseFault cmd f s).phase = s.phase := rfl
@[simp] theorem raiseFault_pos (cmd : CmdWord) (f : FaultCode) (s : State) : (raiseFault cmd f s).pos = s.pos := rfl
@[simp] theorem raiseFault_rate (cmd : CmdWord) (f : FaultCode) (s : State) : (raiseFault cmd f s).rate = s.rate := rfl
@[simp] theorem raiseFault_outlen (cmd : CmdWord) (f : FaultCode) (s : State) : (raiseFault cmd f s).outlen = s.outlen := rfl
@[simp] theorem raiseFault_domain (cmd : CmdWord) (f : FaultCode) (s : State) : (raiseFault cmd f s).domain = s.domain := rfl
@[simp] theorem raiseFault_fault (cmd : CmdWord) (f : FaultCode) (s : State) : (raiseFault cmd f s).fault = true := rfl
@[simp] theorem raiseFault_fcode (cmd : CmdWord) (f : FaultCode) (s : State) : (raiseFault cmd f s).fcode = f := rfl
@[simp] theorem raiseFault_fcmd (cmd : CmdWord) (f : FaultCode) (s : State) : (raiseFault cmd f s).fcmd = cmd := rfl
@[simp] theorem raiseFault_permCount (cmd : CmdWord) (f : FaultCode) (s : State) : (raiseFault cmd f s).permCount = s.permCount := rfl
@[simp] theorem raiseFault_datapath (cmd : CmdWord) (f : FaultCode) (s : State) : (raiseFault cmd f s).datapath = s.datapath := rfl
@[simp] theorem raiseFault_inbox (cmd : CmdWord) (f : FaultCode) (s : State) : (raiseFault cmd f s).inbox = s.inbox := rfl
@[simp] theorem raiseFault_responses (cmd : CmdWord) (f : FaultCode) (s : State) : (raiseFault cmd f s).responses = s.responses ++ [⟨false, 0⟩] := rfl

/-! ## initContext -/

@[simp] theorem initContext_mem (n : Imm) (s : State) : (initContext n s).mem = [] := rfl
@[simp] theorem initContext_phase (n : Imm) (s : State) : (initContext n s).phase = .absorbing := rfl
@[simp] theorem initContext_pos (n : Imm) (s : State) : (initContext n s).pos = 0 := rfl
@[simp] theorem initContext_rate (n : Imm) (s : State) : (initContext n s).rate = 200 - 2 * n := rfl
@[simp] theorem initContext_outlen (n : Imm) (s : State) : (initContext n s).outlen = n := rfl
@[simp] theorem initContext_domain (n : Imm) (s : State) : (initContext n s).domain = .none := rfl
@[simp] theorem initContext_fault (n : Imm) (s : State) : (initContext n s).fault = s.fault := rfl
@[simp] theorem initContext_fcode (n : Imm) (s : State) : (initContext n s).fcode = s.fcode := rfl
@[simp] theorem initContext_fcmd (n : Imm) (s : State) : (initContext n s).fcmd = s.fcmd := rfl
@[simp] theorem initContext_permCount (n : Imm) (s : State) : (initContext n s).permCount = s.permCount := rfl
@[simp] theorem initContext_datapath (n : Imm) (s : State) : (initContext n s).datapath = s.datapath := rfl
@[simp] theorem initContext_inbox (n : Imm) (s : State) : (initContext n s).inbox = s.inbox := rfl
@[simp] theorem initContext_responses (n : Imm) (s : State) : (initContext n s).responses = s.responses := rfl

/-! ## clearContext -/

@[simp] theorem clearContext_mem (s : State) : (clearContext s).mem = [] := rfl
@[simp] theorem clearContext_phase (s : State) : (clearContext s).phase = .idle := rfl
@[simp] theorem clearContext_pos (s : State) : (clearContext s).pos = 0 := rfl
@[simp] theorem clearContext_rate (s : State) : (clearContext s).rate = 0 := rfl
@[simp] theorem clearContext_outlen (s : State) : (clearContext s).outlen = 0 := rfl
@[simp] theorem clearContext_domain (s : State) : (clearContext s).domain = .none := rfl
@[simp] theorem clearContext_fault (s : State) : (clearContext s).fault = s.fault := rfl
@[simp] theorem clearContext_fcode (s : State) : (clearContext s).fcode = s.fcode := rfl
@[simp] theorem clearContext_fcmd (s : State) : (clearContext s).fcmd = s.fcmd := rfl
@[simp] theorem clearContext_permCount (s : State) : (clearContext s).permCount = s.permCount := rfl
@[simp] theorem clearContext_datapath (s : State) : (clearContext s).datapath = s.datapath := rfl
@[simp] theorem clearContext_inbox (s : State) : (clearContext s).inbox = s.inbox := rfl
@[simp] theorem clearContext_responses (s : State) : (clearContext s).responses = s.responses := rfl

/-! ## applyPermutation -/

@[simp] theorem applyPermutation_mem (s : State) : (applyPermutation s).mem = permuteBy s.datapath s.mem := rfl
@[simp] theorem applyPermutation_phase (s : State) : (applyPermutation s).phase = s.phase := rfl
@[simp] theorem applyPermutation_pos (s : State) : (applyPermutation s).pos = s.pos := rfl
@[simp] theorem applyPermutation_rate (s : State) : (applyPermutation s).rate = s.rate := rfl
@[simp] theorem applyPermutation_outlen (s : State) : (applyPermutation s).outlen = s.outlen := rfl
@[simp] theorem applyPermutation_domain (s : State) : (applyPermutation s).domain = s.domain := rfl
@[simp] theorem applyPermutation_fault (s : State) : (applyPermutation s).fault = s.fault := rfl
@[simp] theorem applyPermutation_fcode (s : State) : (applyPermutation s).fcode = s.fcode := rfl
@[simp] theorem applyPermutation_fcmd (s : State) : (applyPermutation s).fcmd = s.fcmd := rfl
@[simp] theorem applyPermutation_permCount (s : State) : (applyPermutation s).permCount = s.permCount + 1 := rfl
@[simp] theorem applyPermutation_datapath (s : State) : (applyPermutation s).datapath = s.datapath := rfl
@[simp] theorem applyPermutation_inbox (s : State) : (applyPermutation s).inbox = s.inbox := rfl
@[simp] theorem applyPermutation_responses (s : State) : (applyPermutation s).responses = s.responses := rfl

/-! ## applyReset -/

@[simp] theorem applyReset_mem (s : State) : (applyReset s).mem = [] := rfl
@[simp] theorem applyReset_phase (s : State) : (applyReset s).phase = .idle := rfl
@[simp] theorem applyReset_pos (s : State) : (applyReset s).pos = 0 := rfl
@[simp] theorem applyReset_rate (s : State) : (applyReset s).rate = 0 := rfl
@[simp] theorem applyReset_outlen (s : State) : (applyReset s).outlen = 0 := rfl
@[simp] theorem applyReset_domain (s : State) : (applyReset s).domain = .none := rfl
@[simp] theorem applyReset_fault (s : State) : (applyReset s).fault = false := rfl
@[simp] theorem applyReset_fcode (s : State) : (applyReset s).fcode = .none := rfl
@[simp] theorem applyReset_fcmd (s : State) : (applyReset s).fcmd = 0 := rfl
@[simp] theorem applyReset_permCount (s : State) : (applyReset s).permCount = 0 := rfl
@[simp] theorem applyReset_datapath (s : State) : (applyReset s).datapath = s.datapath := rfl
@[simp] theorem applyReset_inbox (s : State) : (applyReset s).inbox = s.inbox := rfl
@[simp] theorem applyReset_responses (s : State) : (applyReset s).responses = s.responses := rfl

/-! ## present -/

@[simp] theorem present_mem (t : Transaction) (s : State) : (present t s).mem = s.mem := rfl
@[simp] theorem present_phase (t : Transaction) (s : State) : (present t s).phase = s.phase := rfl
@[simp] theorem present_pos (t : Transaction) (s : State) : (present t s).pos = s.pos := rfl
@[simp] theorem present_rate (t : Transaction) (s : State) : (present t s).rate = s.rate := rfl
@[simp] theorem present_outlen (t : Transaction) (s : State) : (present t s).outlen = s.outlen := rfl
@[simp] theorem present_domain (t : Transaction) (s : State) : (present t s).domain = s.domain := rfl
@[simp] theorem present_fault (t : Transaction) (s : State) : (present t s).fault = s.fault := rfl
@[simp] theorem present_fcode (t : Transaction) (s : State) : (present t s).fcode = s.fcode := rfl
@[simp] theorem present_fcmd (t : Transaction) (s : State) : (present t s).fcmd = s.fcmd := rfl
@[simp] theorem present_permCount (t : Transaction) (s : State) : (present t s).permCount = s.permCount := rfl
@[simp] theorem present_datapath (t : Transaction) (s : State) : (present t s).datapath = s.datapath := rfl
@[simp] theorem present_inbox (t : Transaction) (s : State) : (present t s).inbox = .issue t :: s.inbox := rfl
@[simp] theorem present_responses (t : Transaction) (s : State) : (present t s).responses = s.responses := rfl

/-! ## The reset state -/

@[simp] theorem resetOf_mem (dp : Config.Datapath) : (State.resetOf dp).mem = [] := rfl
@[simp] theorem resetOf_phase (dp : Config.Datapath) : (State.resetOf dp).phase = .idle := rfl
@[simp] theorem resetOf_pos (dp : Config.Datapath) : (State.resetOf dp).pos = 0 := rfl
@[simp] theorem resetOf_rate (dp : Config.Datapath) : (State.resetOf dp).rate = 0 := rfl
@[simp] theorem resetOf_outlen (dp : Config.Datapath) : (State.resetOf dp).outlen = 0 := rfl
@[simp] theorem resetOf_domain (dp : Config.Datapath) : (State.resetOf dp).domain = .none := rfl
@[simp] theorem resetOf_fault (dp : Config.Datapath) : (State.resetOf dp).fault = false := rfl
@[simp] theorem resetOf_fcode (dp : Config.Datapath) : (State.resetOf dp).fcode = .none := rfl
@[simp] theorem resetOf_fcmd (dp : Config.Datapath) : (State.resetOf dp).fcmd = 0 := rfl
@[simp] theorem resetOf_permCount (dp : Config.Datapath) : (State.resetOf dp).permCount = 0 := rfl
@[simp] theorem resetOf_datapath (dp : Config.Datapath) : (State.resetOf dp).datapath = dp := rfl
@[simp] theorem resetOf_inbox (dp : Config.Datapath) : (State.resetOf dp).inbox = [] := rfl
@[simp] theorem resetOf_responses (dp : Config.Datapath) : (State.resetOf dp).responses = [] := rfl

/-! ## Moving the absorbed-position (R151, R155): the fields no branch touches, and the two branches -/

@[simp] theorem advancePos_phase (s : State) : (advancePos s).phase = s.phase := by
  unfold advancePos; split <;> rfl
@[simp] theorem advancePos_rate (s : State) : (advancePos s).rate = s.rate := by
  unfold advancePos; split <;> rfl
@[simp] theorem advancePos_outlen (s : State) : (advancePos s).outlen = s.outlen := by
  unfold advancePos; split <;> rfl
@[simp] theorem advancePos_domain (s : State) : (advancePos s).domain = s.domain := by
  unfold advancePos; split <;> rfl
@[simp] theorem advancePos_fault (s : State) : (advancePos s).fault = s.fault := by
  unfold advancePos; split <;> rfl
@[simp] theorem advancePos_fcode (s : State) : (advancePos s).fcode = s.fcode := by
  unfold advancePos; split <;> rfl
@[simp] theorem advancePos_fcmd (s : State) : (advancePos s).fcmd = s.fcmd := by
  unfold advancePos; split <;> rfl
@[simp] theorem advancePos_datapath (s : State) : (advancePos s).datapath = s.datapath := by
  unfold advancePos; split <;> rfl
@[simp] theorem advancePos_inbox (s : State) : (advancePos s).inbox = s.inbox := by
  unfold advancePos; split <;> rfl
@[simp] theorem advancePos_responses (s : State) : (advancePos s).responses = s.responses := by
  unfold advancePos; split <;> rfl

/-- Below the block boundary only POS moves. -/
theorem advancePos_below (s : State) (h : s.pos + 1 ≠ s.rate) : advancePos s = { s with pos := s.pos + 1 } :=
  if_neg h

/-- At the block boundary the permutation runs at once and POS returns to 0. -/
theorem advancePos_boundary (s : State) (h : s.pos + 1 = s.rate) :
    advancePos s = { applyPermutation s with pos := 0 } :=
  if_pos h

end Sys2Proof.Machine
end

