-- ==== Sys2Proof/Laws/Perform.lean ====
section
/-! SUPPORT. Laws/Perform.lean: the one step of every command (30_encoding.md R78), said once: its four ways to end, and
the equations of each way. Later proofs cite these instead of unfolding `perform`. -/

namespace Sys2Proof.Machine

/-- The latch is clear and every check passes: the command executes. -/
theorem perform_runs {i : Instr} {f : State → Except Fault (Word × State)} {s : State} (hf : s.fault = false)
    (hc : stateCheck i s = .none) : perform i f s = complete (f s) := by
  simp [perform, hf, hc]

/-- A read-only command executes whatever the latch says (R77, R212). -/
theorem perform_readOnly {i : Instr} {f : State → Except Fault (Word × State)} {s : State}
    (hr : readOnly i.op = true) (hc : stateCheck i s = .none) : perform i f s = complete (f s) := by
  by_cases h : s.fault <;> simp [perform, h, hr, hc]

/-- While FAULT = 1 any other command is refused (R212). -/
theorem perform_refused {i : Instr} {f : State → Except Fault (Word × State)} {s : State} (hf : s.fault = true)
    (hr : readOnly i.op = false) : perform i f s = .next (refuse s) := by
  simp [perform, hf, hr]

/-- A failed check with the latch clear is a fault (R210). -/
theorem perform_faults {i : Instr} {f : State → Except Fault (Word × State)} {s : State} (hf : s.fault = false)
    (hc : stateCheck i s ≠ .none) : perform i f s = .next (raiseFault i.cmdWord (stateCheck i s) s) := by
  unfold perform
  rw [hf, if_neg (by simp)]
  split
  · rename_i h; exact absurd h hc
  · rfl

/-- A command that answers completed from what its effect gave. -/
theorem complete_next {r : Except Fault (Word × State)} {t : State} (h : complete r = .next t) :
    ∃ rd s', r = .ok (rd, s') ∧ t = respond true rd s' := by
  cases r with
  | ok p => exact ⟨p.1, p.2, rfl, by simpa [complete] using h.symm⟩
  | error f => simp [complete] at h

/-- How a command ends, when it ends in a next state: refused, faulted, or executed. -/
theorem perform_next {i : Instr} {f : State → Except Fault (Word × State)} {s t : State}
    (h : perform i f s = .next t) :
    (s.fault = true ∧ readOnly i.op = false ∧ t = refuse s) ∨
    (s.fault = false ∧ stateCheck i s ≠ .none ∧ t = raiseFault i.cmdWord (stateCheck i s) s) ∨
    ((s.fault = false ∧ stateCheck i s = .none ∨ s.fault = true ∧ readOnly i.op = true) ∧
      ∃ rd s', f s = .ok (rd, s') ∧ t = respond true rd s') := by
  by_cases hf : s.fault = true
  · by_cases hr : readOnly i.op = true
    · rw [perform, if_pos hf, if_pos hr] at h
      exact .inr (.inr ⟨.inr ⟨hf, hr⟩, complete_next h⟩)
    · rw [perform, if_pos hf, if_neg hr] at h
      exact .inl ⟨hf, by simpa using hr, by simpa using h.symm⟩
  · have hf : s.fault = false := by simpa using hf
    by_cases hc : stateCheck i s = .none
    · rw [perform_runs hf hc] at h
      exact .inr (.inr ⟨.inl ⟨hf, hc⟩, complete_next h⟩)
    · rw [perform_faults hf hc] at h
      exact .inr (.inl ⟨hf, hc, by simpa using h.symm⟩)

/-- A command stops with a fault only where its own effect does. -/
theorem perform_fault {i : Instr} {f : State → Except Fault (Word × State)} {s : State} {e : Fault}
    (h : perform i f s = .fault e) : f s = .error e := by
  unfold perform at h
  split at h
  · split at h
    · unfold complete at h; split at h <;> simp_all
    · simp at h
  · split at h
    · unfold complete at h; split at h <;> simp_all
    · simp at h

theorem perform_not_refused {i : Instr} {f : State → Except Fault (Word × State)} {s : State} {r : Refusal} :
    perform i f s ≠ .refused r := by
  have hc : ∀ x : Except Fault (Word × State), complete x ≠ .refused r := by
    intro x; cases x <;> simp [complete]
  unfold perform
  split
  · split
    · exact hc _
    · simp
  · split
    · exact hc _
    · simp

end Sys2Proof.Machine
end

