-- ==== Sys2Proof/Laws/Effect.lean ====
section
/-! SUPPORT. Laws/Effect.lean: `Execute(op, imm, A, B)` of 30_encoding.md R78 gathered in one function, so that a rule over
all commands is a case analysis of their effects, and what every effect leaves alone. -/

namespace Sys2Proof.Machine

/-- What each command does once its checks have passed. -/
def effect (i : Instr) (s : State) : Except Fault (Word × State) :=
  match i with
  | .nop => .ok (0, s)
  | .init n => .ok (0, initContext n s)
  | .absorb n a => (absorbBytes (operandBytes n a) s).map fun t => (0, t)
  | .final => (padBlock 0x06 s).map fun m =>
      (0, { applyPermutation { s with mem := m } with pos := 0, domain := .fixed, phase := .final })
  | .xof => (padBlock 0x1F s).map fun m =>
      (0, { applyPermutation { s with mem := m } with pos := 0, domain := .xof, phase := .squeezing })
  | .squeeze n => (squeezeBytes n.toNat s).map fun p => (wordOfBytes p.1, p.2)
  | .digest k => (memRead s.mem (8 * k.toNat) (min 8 (s.outlen.toNat - 8 * k.toNat))).map fun v => (v, s)
  | .discard => .ok (0, clearContext s)
  | .wrlane k a => (memWrite s.mem (8 * k.toNat) 8 a).map fun m => (0, { s with mem := m })
  | .rdlane k => (memRead s.mem (8 * k.toNat) 8).map fun v => (v, s)
  | .permute => .ok (0, applyPermutation s)
  | .ror32 n a => .ok ((rotr32 (a.setWidth 32) n.toNat).setWidth 64, s)
  | .ror64 n a => .ok (rotr64 a n.toNat, s)
  | .andn a b => .ok (andNot a b, s)
  | .intlv a => .ok (interleave a, s)
  | .dintlv a => .ok (uninterleave a, s)
  | .irol n a =>
      .ok (packPair (rotatePair (pairEven a) (pairOdd a) n.toNat).1 (rotatePair (pairEven a) (pairOdd a) n.toNat).2, s)
  | .rdstat => .ok (statusWord s, s)
  | .rdid => .ok (idWord s.datapath, s)
  | .rdcnt => .ok (s.permCount, s)
  | .rdfault => .ok (faultInfoWord s, s)

/-- Every command is the one step of R78 around its effect. -/
theorem exec_eq_perform (i : Instr) (s : State) : exec i s = perform i (effect i) s := by
  cases i <;> first
    | rfl
    | (simp only [exec, execAbsorb, execFinal, execXof, execSqueeze, execDigest, execWrlane, execRdlane]
       congr 1
       funext s
       simp only [effect]
       split <;> (rename_i h; rw [h]; rfl))

/-- A failed or refused command, or an executed one: how `exec` ends in a next state. -/
theorem exec_next {i : Instr} {s t : State} (h : exec i s = .next t) :
    (s.fault = true ∧ readOnly i.op = false ∧ t = refuse s) ∨
    (s.fault = false ∧ stateCheck i s ≠ .none ∧ t = raiseFault i.cmdWord (stateCheck i s) s) ∨
    ((s.fault = false ∧ stateCheck i s = .none ∨ s.fault = true ∧ readOnly i.op = true) ∧
      ∃ rd s', effect i s = .ok (rd, s') ∧ t = respond true rd s') :=
  perform_next (exec_eq_perform i s ▸ h)

/-- The latch is clear and every check passes: the command executes. -/
theorem exec_runs {i : Instr} {s s' : State} {rd : Word} (hf : s.fault = false) (hc : stateCheck i s = .none)
    (he : effect i s = .ok (rd, s')) : exec i s = .next (respond true rd s') := by
  rw [exec_eq_perform, perform_runs hf hc, he]; rfl

/-- A read-only command executes whatever the latch says. -/
theorem exec_readOnly {i : Instr} {s s' : State} {rd : Word} (hr : readOnly i.op = true)
    (hc : stateCheck i s = .none) (he : effect i s = .ok (rd, s')) : exec i s = .next (respond true rd s') := by
  rw [exec_eq_perform, perform_readOnly hr hc, he]; rfl

/-! ## What no effect touches -/

/-- The fields that no command's effect writes: the fault registers, DATAPATH and the port's lists. -/
def SameShell (s t : State) : Prop :=
  t.fault = s.fault ∧ t.fcode = s.fcode ∧ t.fcmd = s.fcmd ∧ t.datapath = s.datapath ∧ t.inbox = s.inbox ∧
    t.responses = s.responses

theorem SameShell.refl (s : State) : SameShell s s := ⟨rfl, rfl, rfl, rfl, rfl, rfl⟩

theorem SameShell.trans {s t u : State} (h : SameShell s t) (h' : SameShell t u) : SameShell s u := by
  unfold SameShell at *; simp_all

theorem sameShell_advancePos (s : State) : SameShell s (advancePos s) := by simp [SameShell]

/-- A sponge byte stream leaves the shell and the context registers other than POS alone. -/
def SameContext (s t : State) : Prop :=
  SameShell s t ∧ t.phase = s.phase ∧ t.rate = s.rate ∧ t.outlen = s.outlen ∧ t.domain = s.domain

theorem SameContext.refl (s : State) : SameContext s s := ⟨SameShell.refl s, rfl, rfl, rfl, rfl⟩

theorem SameContext.trans {s t u : State} (h : SameContext s t) (h' : SameContext t u) : SameContext s u := by
  obtain ⟨h1, h2⟩ := h
  obtain ⟨h1', h2'⟩ := h'
  exact ⟨h1.trans h1', by simp_all⟩

theorem sameContext_absorbByte {b : Byte} {s t : State} (h : absorbByte b s = .ok t) : SameContext s t := by
  unfold absorbByte at h
  split at h
  · cases h; simp [SameContext, SameShell]
  · cases h

theorem sameContext_absorbBytes {bs : List Byte} {s t : State} (h : absorbBytes bs s = .ok t) : SameContext s t := by
  induction bs generalizing s with
  | nil => cases h; exact .refl _
  | cons b bs ih =>
    rw [absorbBytes] at h
    split at h
    · rename_i s' h'; exact (sameContext_absorbByte h').trans (ih h)
    · cases h

theorem sameContext_squeezeByte {b : Byte} {s t : State} (h : squeezeByte s = .ok (b, t)) : SameContext s t := by
  unfold squeezeByte at h
  split at h
  · cases h; simp [SameContext, SameShell]
  · cases h

theorem sameContext_squeezeBytes {n : Nat} {bs : List Byte} {s t : State} (h : squeezeBytes n s = .ok (bs, t)) :
    SameContext s t := by
  induction n generalizing s bs with
  | zero => cases h; exact .refl _
  | succ n ih =>
    rw [squeezeBytes] at h
    split at h
    · cases h
    · rename_i s' h'
      split at h
      · cases h
      · rename_i s'' h''; cases h; exact (sameContext_squeezeByte h').trans (ih h'')

theorem map_ok {α β ε : Type} {x : Except ε α} {g : α → β} {y : β} (h : x.map g = .ok y) :
    ∃ v, x = .ok v ∧ y = g v := by
  cases x with
  | error e => cases h
  | ok v => exact ⟨v, rfl, by simpa [Except.map] using h.symm⟩

/-- No command's effect writes the fault registers, DATAPATH or the port's lists (R30 to R32, R231). -/
theorem effect_sameShell {i : Instr} {s t : State} {rd : Word} (h : effect i s = .ok (rd, t)) : SameShell s t := by
  cases i <;> simp only [effect] at h <;> first
    | (cases h; simp [SameShell])
    | (obtain ⟨v, hv, h⟩ := map_ok h
       cases h
       first
         | exact (sameContext_absorbBytes hv).1
         | exact (sameContext_squeezeBytes hv).1
         | simp [SameShell])

end Sys2Proof.Machine
end

