-- ==== Sys2Proof/Laws/Interleaved.lean ====
section
/-! SUPPORT. Laws/Interleaved.lean: each step of the W32I datapath is the 64-bit step seen on the halves
(41_permutation.md R131). -/

namespace Sys2Proof.Machine

theorem halfAt_buildHalves (f : Nat → Half) (i : Nat) : halfAt (buildHalves f) i = if i < 25 then f i else 0 :=
  getD_map_range f 0 25 i

/-- Two lists of halves built from functions that agree below 25 are equal. -/
theorem buildHalves_congr {f g : Nat → Half} (h : ∀ i < 25, f i = g i) : buildHalves f = buildHalves g :=
  List.map_congr_left fun i hi => h i (List.mem_range.1 hi)

theorem halfAt_even (A : Lanes) {i : Nat} (hi : i < 25) : halfAt (toPairs A).even i = evenHalf (A.get i) := by
  rw [toPairs, halfAt_buildHalves, if_pos hi]

theorem halfAt_odd (A : Lanes) {i : Nat} (hi : i < 25) : halfAt (toPairs A).odd i = oddHalf (A.get i) := by
  rw [toPairs, halfAt_buildHalves, if_pos hi]

/-- Two pairs of lists are the halves of the same lanes when they are so at each of the 25 indices. -/
theorem toPairs_eq {A : Lanes} {f g : Nat → Half} (he : ∀ i < 25, f i = evenHalf (A.get i))
    (ho : ∀ i < 25, g i = oddHalf (A.get i)) : Pairs.mk (buildHalves f) (buildHalves g) = toPairs A := by
  rw [toPairs, buildHalves_congr he, buildHalves_congr ho]

theorem halfParity_even (A : Lanes) {x : Nat} (hx : x < 5) :
    halfParity (toPairs A).even x = evenHalf (columnParity A x) := by
  rw [halfParity, columnParity, halfAt_even A (by omega), halfAt_even A (by omega), halfAt_even A (by omega),
    halfAt_even A (by omega), halfAt_even A (by omega)]
  simp only [evenHalf_xor, Lanes.at, Nat.mul_zero, Nat.add_zero, Nat.mul_one, show 5 * 2 = 10 by omega,
    show 5 * 3 = 15 by omega, show 5 * 4 = 20 by omega]

theorem halfParity_odd (A : Lanes) {x : Nat} (hx : x < 5) :
    halfParity (toPairs A).odd x = oddHalf (columnParity A x) := by
  rw [halfParity, columnParity, halfAt_odd A (by omega), halfAt_odd A (by omega), halfAt_odd A (by omega),
    halfAt_odd A (by omega), halfAt_odd A (by omega)]
  simp only [oddHalf_xor, Lanes.at, Nat.mul_zero, Nat.add_zero, Nat.mul_one, show 5 * 2 = 10 by omega,
    show 5 * 3 = 15 by omega, show 5 * 4 = 20 by omega]

/-- The rotate by 1 of theta: the odd half, rotated, becomes the even half, and the even half the odd one (R105). -/
theorem halves_rotl_one (x : Word) :
    evenHalf (rotl64 x 1) = rotl32 (oddHalf x) 1 ∧ oddHalf (rotl64 x 1) = evenHalf x := by
  have h := rotatePair_halves x 1
  simp only [rotatePair] at h
  obtain ⟨h1, h2⟩ := Prod.mk.injEq .. ▸ h
  refine ⟨h1.symm, h2.symm.trans ?_⟩
  apply BitVec.eq_of_getLsbD_eq
  intro i hi
  rw [getLsbD_rotl32 _ _ _ hi]
  congr 1; omega

theorem thetaPairs_toPairs (A : Lanes) : thetaPairs (toPairs A) = toPairs (theta A) := by
  have h5 : ∀ x, x % 5 < 5 := fun x => Nat.mod_lt x (by omega)
  apply toPairs_eq
  · intro i hi
    simp only [getD_map_range, h5, if_true]
    rw [get_theta A hi, halfAt_even A hi, halfParity_even A (h5 _), halfParity_odd A (h5 _), evenHalf_xor,
      evenHalf_xor, (halves_rotl_one _).1]
  · intro i hi
    simp only [getD_map_range, h5, if_true]
    rw [get_theta A hi, halfAt_odd A hi, halfParity_odd A (h5 _), halfParity_even A (h5 _), oddHalf_xor,
      oddHalf_xor, (halves_rotl_one _).2]

theorem rhoPairs_toPairs (A : Lanes) : rhoPairs (toPairs A) = toPairs (rho A) := by
  apply toPairs_eq <;> intro i hi <;>
    simp only [halfAt_even A hi, halfAt_odd A hi, rotatePair_halves, get_rho A hi]

theorem piPairs_toPairs (A : Lanes) : piPairs (toPairs A) = toPairs (piStep A) := by
  apply toPairs_eq <;> intro j hj
  · rw [halfAt_even A (piSource_lt j), get_piStep A hj]
  · rw [halfAt_odd A (piSource_lt j), get_piStep A hj]

theorem chiPairs_toPairs (A : Lanes) : chiPairs (toPairs A) = toPairs (chi A) := by
  apply toPairs_eq <;> intro i hi
  · rw [halfAt_even A hi, halfAt_even A (rowNeighbour_lt hi 1), halfAt_even A (rowNeighbour_lt hi 2),
      get_chi A hi, evenHalf_xor, evenHalf_andNot]
  · rw [halfAt_odd A hi, halfAt_odd A (rowNeighbour_lt hi 1), halfAt_odd A (rowNeighbour_lt hi 2),
      get_chi A hi, oddHalf_xor, oddHalf_andNot]

/-- The interleaved constants are the halves of the 64-bit ones (R138). -/
theorem rc_halves : ∀ ir < 24, evenHalf (rcAt ir) = rcEvenTable.getD ir 0 ∧ oddHalf (rcAt ir) = rcOddTable.getD ir 0 := by
  decide +kernel

theorem iotaPairs_toPairs {ir : Nat} (hir : ir < 24) (A : Lanes) :
    iotaPairs ir (toPairs A) = toPairs (iota ir A) := by
  apply toPairs_eq <;> intro i hi
  · rw [get_iota ir A hi, halfAt_even A hi, halfAt_even A (by omega), ← (rc_halves ir hir).1]
    split
    · rw [evenHalf_xor]
    · rfl
  · rw [get_iota ir A hi, halfAt_odd A hi, halfAt_odd A (by omega), ← (rc_halves ir hir).2]
    split
    · rw [oddHalf_xor]
    · rfl

/-- One interleaved round on the halves of a state is the 64-bit round on the state (R131). -/
theorem pairsRound_toPairs {ir : Nat} (hir : ir < 24) (A : Lanes) :
    pairsRound (toPairs A) ir = toPairs (keccakRound A ir) := by
  rw [pairsRound, thetaPairs_toPairs, rhoPairs_toPairs, piPairs_toPairs, chiPairs_toPairs, iotaPairs_toPairs hir,
    keccakRound]

end Sys2Proof.Machine
end

