-- ==== Sys2Proof/Laws/PerInstr.lean ====
section
/-! SUPPORT. Laws/PerInstr.lean: facts about the instructions as syntax, one lemma a constructor. -/

namespace Sys2Proof.Laws.ImmLegal

/-- The column of legal immediates (30_encoding.md R74) and the decoder's immediate check (60_exceptions.md R211 step 3),
which are written apart, agree on the instruction. -/
def Statement (i : Instr) : Prop := i.wf = true ↔ immCheck i.op i.imm = .none

theorem codeUnless_none (b : Bool) {f : FaultCode} (hf : f ≠ .none) : codeUnless b f = .none ↔ b = true := by
  cases b <;> simp [codeUnless, hf]

theorem nop : Statement .nop := iff_of_true rfl rfl

theorem init (n : Imm) : Statement (.init n) := by
  rw [Statement, Instr.op, Instr.imm, immCheck, codeUnless_none _ (by decide)]
  simp [Instr.wf, supportedOutLens, or_assoc]

theorem absorb (n : Imm) (a : Word) : Statement (.absorb n a) := (codeUnless_none _ (by decide)).symm

theorem final : Statement .final := iff_of_true rfl rfl

theorem xof : Statement .xof := iff_of_true rfl rfl

theorem squeeze (n : Imm) : Statement (.squeeze n) := (codeUnless_none _ (by decide)).symm

theorem digest (k : Imm) : Statement (.digest k) := (codeUnless_none _ (by decide)).symm

theorem discard : Statement .discard := iff_of_true rfl rfl

theorem wrlane (k : Imm) (a : Word) : Statement (.wrlane k a) := (codeUnless_none _ (by decide)).symm

theorem rdlane (k : Imm) : Statement (.rdlane k) := (codeUnless_none _ (by decide)).symm

theorem permute : Statement .permute := iff_of_true rfl rfl

theorem ror32 (n : Imm) (a : Word) : Statement (.ror32 n a) := iff_of_true rfl rfl

theorem ror64 (n : Imm) (a : Word) : Statement (.ror64 n a) := iff_of_true rfl rfl

theorem andn (a b : Word) : Statement (.andn a b) := iff_of_true rfl rfl

theorem intlv (a : Word) : Statement (.intlv a) := iff_of_true rfl rfl

theorem dintlv (a : Word) : Statement (.dintlv a) := iff_of_true rfl rfl

theorem irol (n : Imm) (a : Word) : Statement (.irol n a) := iff_of_true rfl rfl

theorem rdstat : Statement .rdstat := iff_of_true rfl rfl

theorem rdid : Statement .rdid := iff_of_true rfl rfl

theorem rdcnt : Statement .rdcnt := iff_of_true rfl rfl

theorem rdfault : Statement .rdfault := iff_of_true rfl rfl

end Sys2Proof.Laws.ImmLegal
end

