-- ==== Sys2Proof/Laws/Stream.lean ====
section
/-! SUPPORT. Laws/Stream.lean: what AbsorbByte and SqueezeByte do over a run of bytes (42_sponge.md R151, R155, R161): below
the block boundary, up to it, and in two parts. -/

namespace Sys2Proof.Machine

/-- S in canonical form, and POS inside a block that lies in S: the states in which a byte stream is under way. -/
structure Ready (s : State) : Prop where
  mem : s.mem.wf = true
  pos : s.pos.toNat < s.rate.toNat
  rate : s.rate.toNat ≤ 200

theorem Ready.pos_lt {s : State} (h : Ready s) : s.pos.toNat < 200 := Nat.lt_of_lt_of_le h.pos h.rate

theorem Ready.pos_succ {s : State} (h : Ready s) : (s.pos + 1).toNat = s.pos.toNat + 1 := by
  have := h.pos_lt
  rw [BitVec.toNat_add, show (1 : BitVec 8).toNat = 1 from rfl]
  omega

theorem Ready.boundary {s : State} (h : Ready s) : s.pos + 1 = s.rate ↔ s.pos.toNat + 1 = s.rate.toNat := by
  rw [← BitVec.toNat_inj, h.pos_succ]

/-- Moving past a byte keeps the stream ready, whether or not the block ends there. -/
theorem Ready.advance {s : State} (h : Ready s) : Ready (advancePos s) := by
  by_cases hb : s.pos + 1 = s.rate
  · rw [advancePos_boundary s hb]
    refine ⟨wf_permuteBy _ _, ?_, h.rate⟩
    have := h.pos
    change 0 < s.rate.toNat
    omega
  · rw [advancePos_below s hb]
    refine ⟨h.mem, ?_, h.rate⟩
    change (s.pos + 1).toNat < s.rate.toNat
    rw [h.pos_succ]
    have := mt h.boundary.2 hb
    have := h.pos
    omega

/-! ## XORing a run of bytes into S -/

theorem zero_xor_byte (b : Byte) : (0 : Byte) ^^^ b = b := by simp

/-- The array with a run of bytes XORed in from `j` on. -/
def xorBytes : Memory → Nat → List Byte → Memory
  | m, _, [] => m
  | m, j, b :: bs => xorBytes (m.write j (m.read j ^^^ b)) (j + 1) bs

theorem wf_xorBytes (bs : List Byte) {m : Memory} (h : m.wf = true) {j : Nat} (hj : j + bs.length ≤ 200) :
    (xorBytes m j bs).wf = true := by
  induction bs generalizing m j with
  | nil => exact h
  | cons b bs ih =>
    simp only [List.length_cons] at hj
    exact ih (Memory.wf_write h (by omega) _) (by omega)

theorem read_xorBytes (bs : List Byte) {m : Memory} (h : m.wf = true) {j : Nat} (hj : j + bs.length ≤ 200) (a : Nat) :
    (xorBytes m j bs).read a = m.read a ^^^ (if j ≤ a ∧ a < j + bs.length then bs.getD (a - j) 0 else 0) := by
  induction bs generalizing m j with
  | nil => simp [xorBytes]
  | cons b bs ih =>
    simp only [List.length_cons] at hj ⊢
    rw [xorBytes, ih (Memory.wf_write h (by omega) _) (by omega), read_xor h, BitVec.xor_assoc]
    congr 1
    by_cases h1 : a = j
    · subst h1
      rw [if_pos rfl, if_neg (by omega), if_pos (by omega)]
      simp
    · rw [if_neg h1, zero_xor_byte]
      by_cases h2 : j + 1 ≤ a ∧ a < j + 1 + bs.length
      · rw [if_pos h2, if_pos (by omega), show a - j = (a - (j + 1)) + 1 by omega, List.getD_cons_succ]
      · rw [if_neg h2, if_neg (by omega)]

/-! ## Absorbing -/

theorem absorbByte_ready {s : State} (h : Ready s) (b : Byte) :
    absorbByte b s = .ok (advancePos { s with mem := s.mem.write s.pos.toNat (s.mem.read s.pos.toNat ^^^ b) }) := by
  rw [absorbByte, xorByte_ok _ h.pos_lt]

theorem Ready.write {s : State} (h : Ready s) (b : Byte) :
    Ready { s with mem := s.mem.write s.pos.toNat b } :=
  ⟨Memory.wf_write h.mem h.pos_lt b, h.pos, h.rate⟩

theorem absorbBytes_append (xs ys : List Byte) (s : State) :
    absorbBytes (xs ++ ys) s =
      match absorbBytes xs s with
      | .ok t => absorbBytes ys t
      | .error f => .error f := by
  induction xs generalizing s with
  | nil => rfl
  | cons b bs ih =>
    rw [List.cons_append, absorbBytes, absorbBytes]
    cases absorbByte b s with
    | ok t => exact ih t
    | error f => rfl

/-- Absorbing never stops in a ready state, and leaves it ready. -/
theorem absorbBytes_ready {s : State} (h : Ready s) (bs : List Byte) :
    ∃ t, absorbBytes bs s = .ok t ∧ Ready t := by
  induction bs generalizing s with
  | nil => exact ⟨s, rfl, h⟩
  | cons b bs ih =>
    obtain ⟨t, ht, hr⟩ := ih ((h.write (s.mem.read s.pos.toNat ^^^ b)).advance)
    exact ⟨t, by rw [absorbBytes, absorbByte_ready h]; exact ht, hr⟩

/-- A run of bytes that ends before the block does: each byte XORed in turn, and POS moved past them. -/
theorem absorbBytes_within (bs : List Byte) {s : State} (h : Ready s) (hl : s.pos.toNat + bs.length < s.rate.toNat) :
    absorbBytes bs s =
      .ok { s with mem := xorBytes s.mem s.pos.toNat bs, pos := s.pos + BitVec.ofNat 8 bs.length } := by
  induction bs generalizing s with
  | nil => simp [absorbBytes, xorBytes]
  | cons b bs ih =>
    simp only [List.length_cons] at hl
    have hb : s.pos + 1 ≠ s.rate := fun hb => by have := h.boundary.1 hb; omega
    have he := advancePos_below { s with mem := s.mem.write s.pos.toNat (s.mem.read s.pos.toNat ^^^ b) } hb
    have hr := (h.write (s.mem.read s.pos.toNat ^^^ b)).advance
    rw [he] at hr
    rw [absorbBytes, absorbByte_ready h, he]
    simp only
    rw [ih hr (by simp only; rw [h.pos_succ]; omega)]
    simp only [h.pos_succ, xorBytes, List.length_cons, BitVec.ofNat_add, BitVec.add_assoc]
    rw [BitVec.add_comm 1 (BitVec.ofNat 8 bs.length)]
    rfl

/-- A run of bytes that fills the block: the XORs, then the permutation at once, and POS back to 0. -/
theorem absorbBytes_fill (bs : List Byte) {s : State} (h : Ready s) (hl : s.pos.toNat + bs.length = s.rate.toNat) :
    absorbBytes bs s = .ok { applyPermutation { s with mem := xorBytes s.mem s.pos.toNat bs } with pos := 0 } := by
  have hp := h.pos
  obtain ⟨bs, b, rfl⟩ : ∃ xs x, bs = xs ++ [x] := by
    rcases List.eq_nil_or_concat bs with rfl | ⟨xs, x, rfl⟩
    · simp at hl; omega
    · exact ⟨xs, x, by simp⟩
  simp only [List.length_append, List.length_cons, List.length_nil] at hl
  have hw := absorbBytes_within bs h (by omega)
  have hr : Ready { s with mem := xorBytes s.mem s.pos.toNat bs, pos := s.pos + BitVec.ofNat 8 bs.length } := by
    obtain ⟨t, ht, hr⟩ := absorbBytes_ready h bs
    rw [hw] at ht
    cases ht
    exact hr
  have hlt := h.pos_lt
  have hrate := h.rate
  have hpos : (s.pos + BitVec.ofNat 8 bs.length).toNat = s.pos.toNat + bs.length := by
    rw [BitVec.toNat_add, BitVec.toNat_ofNat]; omega
  have hx : ∀ (xs : List Byte) (m : Memory) (j : Nat),
      xorBytes m j (xs ++ [b]) = (xorBytes m j xs).write (j + xs.length) ((xorBytes m j xs).read (j + xs.length) ^^^ b) := by
    intro xs
    induction xs with
    | nil => intro m j; simp [xorBytes]
    | cons x xs ih =>
      intro m j
      rw [List.cons_append, xorBytes, xorBytes, ih, List.length_cons, show j + 1 + xs.length = j + (xs.length + 1) by omega]
  rw [absorbBytes_append, hw]
  simp only [absorbBytes]
  rw [absorbByte_ready hr, advancePos_boundary]
  · simp only [hpos, hx]
    rfl
  · refine hr.boundary.2 ?_
    simp only [hpos]
    omega

/-! ## Squeezing -/

theorem squeezeByte_ready {s : State} (h : Ready s) :
    squeezeByte s = .ok (s.mem.read s.pos.toNat, advancePos s) := by
  rw [squeezeByte, readByte_ok _ h.pos_lt]

theorem squeezeBytes_succ {s : State} (h : Ready s) {n : Nat} {bs : List Byte} {t : State}
    (ht : squeezeBytes n (advancePos s) = .ok (bs, t)) :
    squeezeBytes (n + 1) s = .ok (s.mem.read s.pos.toNat :: bs, t) := by
  rw [squeezeBytes, squeezeByte_ready h]
  simp only
  rw [ht]

/-- Squeezing never stops in a ready state, gives as many bytes as asked, and leaves it ready. -/
theorem squeezeBytes_ready {s : State} (h : Ready s) (n : Nat) :
    ∃ bs t, squeezeBytes n s = .ok (bs, t) ∧ bs.length = n ∧ Ready t := by
  induction n generalizing s with
  | zero => exact ⟨[], s, rfl, rfl, h⟩
  | succ n ih =>
    obtain ⟨bs, t, ht, hn, hr⟩ := ih h.advance
    exact ⟨_, t, squeezeBytes_succ h ht, by simp [hn], hr⟩

/-- A read in two parts: the bytes of the first and then those of the second (R161). -/
theorem squeezeBytes_add {m n : Nat} {s t u : State} {bs cs : List Byte} (hm : squeezeBytes m s = .ok (bs, t))
    (hn : squeezeBytes n t = .ok (cs, u)) : squeezeBytes (m + n) s = .ok (bs ++ cs, u) := by
  induction m generalizing s bs with
  | zero => cases hm; simpa using hn
  | succ m ih =>
    rw [show m + 1 + n = (m + n) + 1 by omega]
    rw [squeezeBytes] at hm ⊢
    cases hb : squeezeByte s with
    | error f => rw [hb] at hm; cases hm
    | ok p =>
      obtain ⟨b, s'⟩ := p
      rw [hb] at hm
      simp only at hm ⊢
      cases hs : squeezeBytes m s' with
      | error f => rw [hs] at hm; cases hm
      | ok q =>
        obtain ⟨bs', t'⟩ := q
        rw [hs] at hm
        simp only [Except.ok.injEq, Prod.mk.injEq] at hm
        obtain ⟨rfl, rfl⟩ := hm
        rw [ih hs]
        rfl

/-- The bytes of S from `j` on. -/
def bytesFrom (m : Memory) (j n : Nat) : List Byte := (List.range n).map fun k => m.read (j + k)

theorem bytesFrom_succ (m : Memory) (j n : Nat) : bytesFrom m j (n + 1) = m.read j :: bytesFrom m (j + 1) n := by
  simp [bytesFrom, List.range_succ_eq_map, Function.comp_def, Nat.add_assoc, Nat.add_comm 1]

/-- A read that ends before the block does: the bytes from POS on, and POS moved past them. -/
theorem squeezeBytes_within {s : State} (h : Ready s) {n : Nat} (hn : s.pos.toNat + n < s.rate.toNat) :
    squeezeBytes n s = .ok (bytesFrom s.mem s.pos.toNat n, { s with pos := s.pos + BitVec.ofNat 8 n }) := by
  induction n generalizing s with
  | zero => simp [squeezeBytes, bytesFrom]
  | succ n ih =>
    have hb : s.pos + 1 ≠ s.rate := fun hb => by have := h.boundary.1 hb; omega
    have hr := h.advance
    have he := advancePos_below s hb
    rw [he] at hr
    have hi := ih hr (by simp only [h.pos_succ]; omega)
    rw [squeezeBytes_succ h (by rw [he]; exact hi)]
    simp only [h.pos_succ, ← bytesFrom_succ, BitVec.ofNat_add, BitVec.add_assoc]
    rw [BitVec.add_comm 1 (BitVec.ofNat 8 n)]
    rfl

/-- A read that takes the last byte of the block: the permutation runs at once, and POS is back to 0. -/
theorem squeezeBytes_fill {s : State} (h : Ready s) {n : Nat} (hn : s.pos.toNat + n = s.rate.toNat) :
    squeezeBytes n s = .ok (bytesFrom s.mem s.pos.toNat n, { applyPermutation s with pos := 0 }) := by
  induction n generalizing s with
  | zero => have := h.pos; omega
  | succ n ih =>
    by_cases hb : s.pos + 1 = s.rate
    · have hz : n = 0 := by have := h.boundary.1 hb; omega
      subst hz
      rw [squeezeBytes_succ h (t := advancePos s) (bs := []) rfl, advancePos_boundary s hb]
      rfl
    · have hr := h.advance
      have he := advancePos_below s hb
      rw [he] at hr
      have hi := ih hr (by simp only [h.pos_succ]; omega)
      rw [squeezeBytes_succ h (by rw [he]; exact hi)]
      simp only [h.pos_succ, ← bytesFrom_succ]
      rfl

/-! ## Padding -/

/-- The two padding XORs, both landing where they coincide (R153, R154). -/
theorem padBlock_ready {s : State} (h : Ready s) (d : Byte) :
    ∃ m, padBlock d s = .ok m ∧ m.wf = true ∧
      ∀ a, m.read a = s.mem.read a ^^^ (if a = s.pos.toNat then d else 0) ^^^
        (if a + 1 = s.rate.toNat then 0x80 else 0) := by
  have hp := h.pos
  have hr := h.rate
  have hlast : (s.rate - 1).toNat = s.rate.toNat - 1 := by
    rw [BitVec.toNat_sub, show (1 : BitVec 8).toNat = 1 from rfl]
    omega
  have hw := Memory.wf_write h.mem h.pos_lt (s.mem.read s.pos.toNat ^^^ d)
  refine ⟨_, by rw [padBlock, xorByte_ok _ h.pos_lt]; exact xorByte_ok _ (by omega) _, Memory.wf_write hw (by omega) _, ?_⟩
  intro a
  rw [read_xor hw, read_xor h.mem, hlast]
  congr 1
  simp only [show (a = s.rate.toNat - 1) = (a + 1 = s.rate.toNat) from propext (by omega)]

end Sys2Proof.Machine
end

