-- ==== Sys2Proof/Tests/Slice0.lean ====
section
/-! SUPPORT. Tests/Slice0.lean: the WellFormed smoke tests, words written out from 30_encoding.md R71 and R74, single steps
against the examples of the rules and of 95_test_vectors.md, and a witness for the hypotheses of each statement. -/

namespace Sys2Proof.Machine.Test

/-! ## Helpers -/

/-- The outcome is a next state with the property. -/
def nextMeets (o : Outcome) (p : State → Bool) : Bool :=
  match o with
  | .next t => p t
  | .fault _ => false
  | .refused _ => false

/-- The command's response is (1, rd). -/
def gives (i : Instr) (s : State) (rd : Word) : Bool :=
  nextMeets (exec i s) fun t => t.responses == s.responses ++ [⟨true, rd⟩] && t.fault == s.fault

/-- The command faults with the code, and its word is recorded. -/
def faults (i : Instr) (s : State) (f : FaultCode) (cmd : CmdWord) : Bool :=
  nextMeets (exec i s) fun t =>
    t.fault && t.fcode == f && t.fcmd == cmd && t.responses == s.responses ++ [⟨false, 0⟩] && t.phase == s.phase

/-- A fresh context of `INIT n`, with POS moved. -/
def absorbingAt (n pos : BitVec 8) : State := { initContext n State.reset with pos := pos }

/-- The same in SQUEEZING, over an array. -/
def squeezingAt (n pos : BitVec 8) (m : Memory) : State :=
  { absorbingAt n pos with phase := .squeezing, domain := .xof, mem := m }

/-- The last bytes of the digest of V1 in place, and one byte after it. -/
def finalState : State :=
  { absorbingAt 28 0 with
    phase := .final, domain := .fixed, mem := [(24, 0x5B), (25, 0x5A), (26, 0x6B), (27, 0xC7), (28, 0x11)] }

/-- After `INIT 32` and `SQUEEZE 8` (the example of R183). -/
def latched : State := raiseFault 0x05000008 .squeezePhase (absorbingAt 32 0)

/-- The state in which lane i is i (V2). -/
def laneIndexState (dp : Config.Datapath) : State :=
  { State.resetOf dp with mem := (List.range 24).map fun i => (8 * (i + 1), BitVec.ofNat 8 (i + 1)) }

theorem reset_inv (dp : Config.Datapath) : (State.resetOf dp).Inv := ⟨rfl, ⟨rfl, rfl, rfl, rfl⟩, ⟨rfl, rfl⟩⟩
theorem absorbing_first : (absorbingAt 32 0).Inv :=
  ⟨rfl, ⟨by decide, by decide, by decide, rfl⟩, ⟨rfl, rfl⟩⟩
theorem absorbing_last : (absorbingAt 32 135).Inv :=
  ⟨rfl, ⟨by decide, by decide, by decide, rfl⟩, ⟨rfl, rfl⟩⟩
theorem absorbing_smallest : (absorbingAt 64 71).Inv :=
  ⟨rfl, ⟨by decide, by decide, by decide, rfl⟩, ⟨rfl, rfl⟩⟩
theorem squeezing_first : (squeezingAt 16 0 [(0, 0x7F), (199, 1)]).Inv :=
  ⟨by decide, ⟨by decide, by decide, by decide, rfl⟩, ⟨rfl, rfl⟩⟩
theorem squeezing_last : (squeezingAt 16 167 [(167, 0x0A)]).Inv :=
  ⟨by decide, ⟨by decide, by decide, by decide, rfl⟩, ⟨rfl, rfl⟩⟩
theorem final_inv : finalState.Inv := ⟨by decide, ⟨by decide, by decide, rfl, rfl⟩, ⟨rfl, rfl⟩⟩
theorem latched_inv : latched.Inv :=
  ⟨rfl, ⟨by decide, by decide, by decide, rfl⟩, ⟨by decide, by decide⟩⟩

/-! ## WellFormed: an ill-formed term for each check, and the last term each admits (R74) -/

theorem test_wf_refuses :
    ([.init 20, .absorb 9 0, .squeeze 9, .digest 8, .wrlane 25 0, .rdlane 25] : List Instr).all
      (fun i => !i.wf) = true := by decide
theorem test_wf_admits :
    ([.init 64, .absorb 8 0, .squeeze 8, .digest 7, .wrlane 24 0, .rdlane 24, .ror32 255 0, .ror64 255 0, .irol 255 0]
      : List Instr).all (fun i => i.wf) = true := by decide

/-! ## Words written out from R71 (OP 31:24, RSV 23:8, IMM 7:0) and R74 -/

theorem test_decode_sponge :
    decode ⟨0b00000001_0000000000000000_00011100, 1, 2⟩ = .ok (.init 28) ∧
    decode ⟨0b00000010_0000000000000000_00001000, 1, 2⟩ = .ok (.absorb 8 1) ∧
    decode ⟨0b00000011_0000000000000000_00000000, 1, 2⟩ = .ok .final ∧
    decode ⟨0b00000100_0000000000000000_00000000, 1, 2⟩ = .ok .xof ∧
    decode ⟨0b00000101_0000000000000000_00001000, 1, 2⟩ = .ok (.squeeze 8) ∧
    decode ⟨0b00000110_0000000000000000_00000111, 1, 2⟩ = .ok (.digest 7) ∧
    decode ⟨0b00000111_0000000000000000_00000000, 1, 2⟩ = .ok .discard := by decide
theorem test_decode_raw :
    decode ⟨0b00010000_0000000000000000_00011000, 1, 2⟩ = .ok (.wrlane 24 1) ∧
    decode ⟨0b00010001_0000000000000000_00000001, 1, 2⟩ = .ok (.rdlane 1) ∧
    decode ⟨0b00010010_0000000000000000_00000000, 1, 2⟩ = .ok .permute := by decide
theorem test_decode_primitives :
    decode ⟨0b00100000_0000000000000000_00000100, 1, 2⟩ = .ok (.ror32 4 1) ∧
    decode ⟨0b00100001_0000000000000000_11111111, 1, 2⟩ = .ok (.ror64 255 1) ∧
    decode ⟨0b00100010_0000000000000000_00000000, 1, 2⟩ = .ok (.andn 1 2) ∧
    decode ⟨0b00100011_0000000000000000_00000000, 1, 2⟩ = .ok (.intlv 1) ∧
    decode ⟨0b00100100_0000000000000000_00000000, 1, 2⟩ = .ok (.dintlv 1) ∧
    decode ⟨0b00100101_0000000000000000_00101100, 1, 2⟩ = .ok (.irol 44 1) := by decide
theorem test_decode_system :
    decode ⟨0, 1, 2⟩ = .ok .nop ∧
    decode ⟨0b00110000_0000000000000000_00000000, 1, 2⟩ = .ok .rdstat ∧
    decode ⟨0b00110001_0000000000000000_00000000, 1, 2⟩ = .ok .rdid ∧
    decode ⟨0b00110010_0000000000000000_00000000, 1, 2⟩ = .ok .rdcnt ∧
    decode ⟨0b00110011_0000000000000000_00000000, 1, 2⟩ = .ok .rdfault := by decide

/-- The reserved opcodes at both ends of each range (R75, R201). -/
theorem test_decode_reserved :
    ([0x08000000, 0x0F000000, 0x13000000, 0x1F000000, 0x26000000, 0x2F000000, 0x34000000, 0xFF000000, 0x40000100]
      : List CmdWord).all (fun c => decide (decode ⟨c, 0, 0⟩ = .error .illegalOp)) = true := by decide
/-- The examples of R202 to R204, and an illegal immediate of each other check of R211 step 3. -/
theorem test_decode_faults :
    decode ⟨0x01000120, 0, 0⟩ = .error .rsvNonzero ∧ decode ⟨0x20800000, 0, 0⟩ = .error .rsvNonzero ∧
    ([0x01000000, 0x01000014, 0x01000064] : List CmdWord).all
      (fun c => decide (decode ⟨c, 0, 0⟩ = .error .badOutlen)) = true ∧
    ([0x02000009, 0x05000009, 0x06000008, 0x10000019, 0x11000019, 0x00000001, 0x03000001, 0x04000001, 0x07000001,
      0x12000001, 0x22000001, 0x23000001, 0x24000001, 0x30000001, 0x31000001, 0x32000001, 0x33000001] : List CmdWord).all
      (fun c => decide (decode ⟨c, 0, 0⟩ = .error .badImm)) = true := by decide
/-- The table's numbering: the command word at 31:0, A at 95:32, B at 159:96. -/
theorem test_table_words :
    decodeTableWord 32 0x25000001 = some (.irol 1 0) ∧
    decodeTableWord 160 (0x22000000 + 5 * 2 ^ 32 + 6 * 2 ^ 96) = some (.andn 5 6) ∧
    decodeTableWord 32 0xFF000000 = none := by decide

/-! ## One step each, against the rules' own examples -/

theorem test_nop : gives .nop latched 0 = true := by decide
/-- The example of R150. -/
theorem test_init : nextMeets (exec (.init 32) (squeezingAt 16 3 [(0, 1)])) (fun t =>
    statusWord t == 0x0000002088000001 && t.mem == [] && t.permCount == 0) = true := by decide
/-- The example of R152. -/
theorem test_absorb : nextMeets (exec (.absorb 3 0x636261) (absorbingAt 32 0)) (fun t =>
    t.mem == [(0, 0x61), (1, 0x62), (2, 0x63)] && t.pos == 3) = true := by decide
/-- POS = RATE - 1 pads with 0x86 in one byte (R153). -/
theorem test_pad_coincides : (match padBlock 0x06 (absorbingAt 32 135) with
    | .ok m => decide (m = [(135, 0x86)])
    | .error _ => false) = true := by decide
/-- The example of R153, V1: SHA3-224 of the empty string in S[0..27]. -/
theorem test_final : nextMeets (exec .final (absorbingAt 28 0)) (fun t =>
    t.mem.word 0 8 == 0xB7DB673642034E6B && t.mem.word 8 8 == 0xABB10E4F45156E3B &&
    t.mem.word 16 8 == 0x3F8E071B9A7F59D4 && t.mem.word 24 4 == 0xC76B5A5B && t.permCount == 1 &&
    t.phase == .final && t.domain == .fixed) = true := by decide +kernel
/-- The example of R154: the first bytes of SHAKE128 of the empty string. -/
theorem test_xof : nextMeets (exec .xof (absorbingAt 16 0)) (fun t =>
    t.mem.word 0 8 == 0x7D828FE8A42B9C7F && t.phase == .squeezing && t.domain == .xof) = true := by decide +kernel
/-- The bytes 7F 9C 2B A4 E8 8F 82 7D of R154's example, as S holds them. -/
theorem test_squeeze : gives (.squeeze 8)
    (squeezingAt 16 0 [(0, 0x7F), (1, 0x9C), (2, 0x2B), (3, 0xA4), (4, 0xE8), (5, 0x8F), (6, 0x82), (7, 0x7D)])
    0x7D828FE8A42B9C7F = true := by decide
theorem test_squeeze_fewer : gives (.squeeze 2) (squeezingAt 16 6 [(6, 0x82), (7, 0x7D), (8, 0xFF)]) 0x7D82 = true := by
  decide
/-- The example of R158: the byte past the digest reads 0. -/
theorem test_digest : gives (.digest 3) finalState 0x00000000C76B5A5B = true := by decide
/-- The example of R181: DIGEST 4 of a 28-byte digest faults, and STATUS shows it. -/
theorem test_digest_range : faults (.digest 4) finalState .badImm 0x06000004 = true ∧
    nextMeets (exec (.digest 4) finalState) (fun t => statusWord t == 0x0000001C9000013A) = true := by decide
/-- The example of R157. -/
theorem test_discard : nextMeets (exec .discard finalState) (fun t =>
    statusWord t == 0 && t.mem == [] && t.phase == .idle) = true := by decide
/-- V6.3. -/
theorem test_wrlane : nextMeets (exec (.wrlane 24 0x0123456789ABCDEF) State.reset) (fun t =>
    t.mem == [(192, 0xEF), (193, 0xCD), (194, 0xAB), (195, 0x89), (196, 0x67), (197, 0x45), (198, 0x23), (199, 0x01)])
    = true := by decide
theorem test_wrlane_phase : faults (.wrlane 0 1) (absorbingAt 32 0) .rawPhase 0x10000000 = true := by decide
/-- V6.3: legal in every phase, and while FAULT = 1. -/
theorem test_rdlane : gives (.rdlane 0) { latched with mem := [(0, 0x61), (1, 0x62), (2, 0x63)] } 0x636261 = true := by
  decide
/-- V6.1 on the W64 datapath. -/
theorem test_permute_w64 : nextMeets (exec .permute State.reset) (fun t =>
    (List.range 25).map (fun i => t.mem.word (8 * i) 8) ==
      [0xF1258F7940E1DDE7, 0x84D5CCF933C0478A, 0xD598261EA65AA9EE, 0xBD1547306F80494D, 0x8B284E056253D057] ++
      [0xFF97A42D7F8E6FD4, 0x90FEE5A0A44647C4, 0x8C5BDA0CD6192E76, 0xAD30A6F71B19059C, 0x30935AB7D08FFC64] ++
      [0xEB5AA93F2317D635, 0xA9A6E6260D712103, 0x81A57C16DBCF555F, 0x43B831CD0347C826, 0x01F22F1A11A5569F] ++
      [0x05E5635A21D9AE61, 0x64BEFEF28CC970F2, 0x613670957BC46611, 0xB87C5A554FD00ECB, 0x8C3EE88A1CCF32C8] ++
      [0x940C7922AE3A2614, 0x1841F924A2C509E4, 0x16F53526E70465C2, 0x75F644E97F30A13B, 0xEAF1FF7B5CECA249] &&
    t.permCount == 1) = true := by decide +kernel
/-- V2 on the W32I datapath: the first bytes are 15 81 ED 52 52 B0 74 83. -/
theorem test_permute_w32i : nextMeets (exec .permute (laneIndexState .w32i)) (fun t =>
    t.mem.word 0 8 == 0x8374B05252ED8115 && t.mem.word 96 8 == 0xC8353E94EB2C3E6A &&
    t.mem.word 192 8 == 0xD153F43A297E4A33) = true := by decide +kernel
/-- The examples of R100 to R105. -/
theorem test_ror32 : gives (.ror32 4 0x89ABCDEF12345678) State.reset 0x0000000081234567 = true := by decide
theorem test_ror64 : gives (.ror64 1 0x0123456789ABCDEF) State.reset 0x8091A2B3C4D5E6F7 = true := by decide
theorem test_andn : gives (.andn 0xFF00FF00FF00FF00 0x0F0F0F0F0F0F0F0F) State.reset 0x000F000F000F000F = true := by decide
theorem test_intlv : gives (.intlv 0x0123456789ABCDEF) State.reset 0x0505AFAF11BB11BB = true := by decide
theorem test_dintlv : gives (.dintlv 0x0505AFAF11BB11BB) State.reset 0x0123456789ABCDEF = true := by decide
theorem test_irol : gives (.irol 44 0x0505AFAF11BB11BB) State.reset 0xEBC1416B6EC46EC4 = true := by decide
/-- The corner case n = 63 of R105: e' = o, o' = rotl_32(e, 31). -/
theorem test_irol_odd : gives (.irol 63 0x8000000100000003) State.reset 0x8000000180000001 = true := by decide
theorem test_rdstat : gives .rdstat (absorbingAt 32 0) 0x0000002088000001 = true := by decide
/-- The examples of R184. -/
theorem test_rdid : gives .rdid State.reset 0x00000000C8180101 = true ∧
    gives .rdid (State.resetOf .w32i) 0x00000000C8180201 = true := by decide
theorem test_rdcnt : gives .rdcnt { latched with permCount := 0xFFFFFFFFFFFFFFFF } 0xFFFFFFFFFFFFFFFF = true := by decide
/-- The example of R183. -/
theorem test_rdfault : gives .rdfault latched 0x0000000705000008 = true := by decide

/-- Rows of the tables of R123 and R138: where lanes 1, 5 and 24 go, and the halves of RC[1], RC[4] and RC[23]. -/
theorem test_pi_and_halves :
    (piSource 10, piSource 16, piSource 4) = (1, 5, 24) ∧
    (evenHalf (rcAt 1), oddHalf (rcAt 1)) = (0x00000000, 0x00000089) ∧
    (evenHalf (rcAt 4), oddHalf (rcAt 4)) = (0x00000001, 0x0000008B) ∧
    (evenHalf (rcAt 23), oddHalf (rcAt 23)) = (0x00000000, 0x80008082) := by decide

/-! ## Steps: reset, waiting, the latch, a placed word -/

/-- A reset cuts a command short: no response, and the reset state (R233). -/
theorem test_reset_cuts : nextMeets (step { finalState with inbox := [.cutByReset ⟨0x07000000, 0, 0⟩] }) (fun t =>
    t == State.reset) = true := by decide
/-- A malformed word is reported as malformed whatever the phase: DIGEST 9 in IDLE (R211). -/
theorem test_malformed_first : nextMeets (step (present ⟨0x06000009, 0, 0⟩ State.reset)) (fun t =>
    t.fault && t.fcode == .badImm && t.fcmd == 0x06000009) = true := by decide
/-- While FAULT = 1 INIT is refused and FCMD keeps the first fault (R212, R213). -/
theorem test_latch_refuses : nextMeets (step (present ⟨0x01000020, 0, 0⟩ latched)) (fun t =>
    t == { latched with responses := latched.responses ++ [⟨false, 0⟩] }) = true := by decide
theorem test_placed_word : nextMeets (step (State.reset.withFetchWord 32 0x01000020)) (fun t =>
    t.phase == .absorbing && t.rate == 136 && t.responses == [⟨true, 0⟩]) = true := by decide

/-- The example of R80, the counts of a read of 19 bytes, and the commands of V1. -/
theorem test_pseudo : Pseudo.absorbStr [0x61, 0x62, 0x63] = [.absorb 3 0x636261] ∧ Pseudo.squeezeCounts 19 = [8, 8, 3] ∧
    Pseudo.sha3 28 [] = [.init 28, .final, .digest 0, .digest 1, .digest 2, .digest 3] ∧
    Pseudo.rol64 44 5 = .ror64 20 5 ∧ Pseudo.rol32 32 5 = .ror32 0 5 := by decide

end Sys2Proof.Machine.Test

/-! ## Witnesses: for each statement with hypotheses, values that meet them together -/

namespace Sys2Proof.Machine.Witness

open Sys2Proof.Machine.Test

/-- For each opcode a word with a nonzero reserved field, one with a legal immediate, and, where there is one, an illegal
immediate: the hypotheses of `OpcodeRule` in every statement that uses it. -/
theorem opcodeRule :
    (([0x00, 0x03, 0x04, 0x07, 0x12, 0x22, 0x23, 0x24, 0x30, 0x31, 0x32, 0x33].map fun op => (op, 0, 1)) ++
      [(0x01, 16, 17), (0x02, 8, 9), (0x05, 8, 9), (0x06, 7, 8), (0x10, 24, 25), (0x11, 24, 25), (0x20, 255, 255),
       (0x21, 255, 255), (0x25, 255, 255)]).all (fun (p : Nat × Nat × Nat) =>
      let word (rsv imm : Nat) : Transaction := ⟨BitVec.ofNat 32 (p.1 * 2 ^ 24 + rsv * 2 ^ 8 + imm), 0, 0⟩
      opField (word 0xFFFF 0) == p.1 && rsvField (word 0xFFFF 0) == 0xFFFF && opField (word 0 p.2.1) == p.1 &&
      rsvField (word 0 p.2.1) == 0 && immField (word 0 p.2.1) == p.2.1 && immField (word 0 p.2.2) == p.2.2) = true := by
  decide

theorem resetGivesResetValuesAndAloneClears :
    (∃ (s : State) (e : HostEvent) (rest : List HostEvent), s.inbox = e :: rest ∧ e.isReset = true ∧ s.fault = true) ∧
    (∃ (s : State) (tr : Transaction) (rest : List HostEvent), s.inbox = .cutByReset tr :: rest) ∧
    (∃ (s t : State) (tr : Transaction) (rest : List HostEvent), s.Inv ∧ s.inbox = .issue tr :: rest ∧
      step s = .next t ∧ s.fault = true) :=
  ⟨⟨{ latched with inbox := [.reset] }, .reset, [], rfl, rfl, rfl⟩,
   ⟨{ latched with inbox := [.cutByReset ⟨0, 0, 0⟩] }, ⟨0, 0, 0⟩, [], rfl⟩,
   ⟨present ⟨0, 0, 0⟩ latched, _, ⟨0, 0, 0⟩, [], ⟨latched_inv.memory, latched_inv.context, latched_inv.latch⟩, rfl, rfl,
    rfl⟩⟩

theorem stepRunsTheDecodedCommand :
    (∃ (s : State) (t : Transaction) (rest : List HostEvent) (i : Instr), s.inbox = .issue t :: rest ∧
      decode t = .ok i) ∧ ∃ (nbits w : Nat) (i : Instr), decodeTableWord nbits w = some i :=
  ⟨⟨present ⟨0x01000020, 0, 0⟩ State.reset, _, [], .init 32, rfl, by decide⟩, 32, 0x01000020, .init 32, by decide⟩

theorem malformedWordsAreRejected :
    ∃ (s s' : State) (t : Transaction) (f : FaultCode), s.inbox = .issue t :: [] ∧ s'.inbox = .issue t :: [] ∧
      decode t = .error f ∧ s.fault = false ∧ s'.fault = true :=
  ⟨present ⟨0x08000000, 0, 0⟩ State.reset, present ⟨0x08000000, 0, 0⟩ latched, _, .illegalOp, rfl, rfl, by decide, rfl,
    rfl⟩

theorem blockWaitsForACommand : ∃ s : State, s.inbox = [] := ⟨State.reset, rfl⟩

theorem decodeOfEncodeIsTheInstruction : ∃ i : Instr, i.wf = true := ⟨.wrlane 24 5, by decide⟩

theorem encodeOfDecodeIsTheTransaction :
    ∃ t u : Transaction, decode t = .ok (.andn 5 6) ∧ readsA (opField t) ∧ readsB (opField t) ∧
      decode u = .ok (.init 32) ∧ ¬ readsA (opField u) ∧ ¬ readsB (opField u) :=
  ⟨⟨0x22000000, 5, 6⟩, ⟨0x01000020, 5, 6⟩, by decide, by unfold readsA; decide, by unfold readsB; decide, by decide,
    by unfold readsA; decide, by unfold readsB; decide⟩

theorem reservedOpcodesAndFieldsAreIllegal :
    ∃ t u : Transaction, opField t = 0x34 ∧ decode u ≠ .error .illegalOp ∧ rsvField u ≠ 0 ∧ rsvField t = 0 :=
  ⟨⟨0x34000000, 0, 0⟩, ⟨0x01000120, 0, 0⟩, by decide, by decide, by decide, by decide⟩

theorem unreadOperandsAndEmptyResults :
    (∃ t t' : Transaction, t.cmd = t'.cmd ∧ ¬ readsA (opField t) ∧ ¬ readsB (opField t) ∧ t ≠ t') ∧
    (∃ (i : Instr) (s u : State) (r : Response), exec i s = .next u ∧ u.responses = s.responses ++ [r] ∧ r.ok = true ∧
      ¬ givesResult i) ∧
    (∃ (t : Transaction) (s u : State) (r : Response), step (present t s) = .next u ∧
      u.responses = s.responses ++ [r] ∧ r.ok = false) :=
  ⟨⟨⟨0x01000020, 1, 2⟩, ⟨0x01000020, 3, 4⟩, rfl, by unfold readsA; decide, by unfold readsB; decide, by decide⟩,
   ⟨.nop, State.reset, _, ⟨true, 0⟩, rfl, rfl, rfl, id⟩,
   ⟨⟨0x01000020, 0, 0⟩, latched, _, ⟨false, 0⟩, rfl, rfl, rfl⟩⟩

/-- A value for each of the fourteen outcomes of R211, at the boundary of its range. -/
theorem eachCommandReportsItsFirstFailedCheck :
    FirstFailed 0x34 1 1 .idle 0 .illegalOp ∧ FirstFailed 0x01 1 0 .idle 0 .rsvNonzero ∧
    FirstFailed 0x01 0 0 .idle 0 .badOutlen ∧ FirstFailed 0x33 0 1 .idle 0 .badImm ∧
    FirstFailed 0x02 0 9 .idle 0 .badImm ∧ FirstFailed 0x06 0 8 .idle 0 .badImm ∧
    FirstFailed 0x10 0 25 .absorbing 32 .badImm ∧ FirstFailed 0x02 0 8 .final 32 .absorbPhase ∧
    FirstFailed 0x04 0 0 .squeezing 32 .finalPhase ∧ FirstFailed 0x05 0 8 .absorbing 32 .squeezePhase ∧
    FirstFailed 0x06 0 7 .squeezing 32 .digestPhase ∧ FirstFailed 0x12 0 0 .final 32 .rawPhase ∧
    FirstFailed 0x06 0 4 .final 32 .badImm ∧ FirstFailed 0x06 0 3 .final 32 .none ∧
    (∃ s : State, s.Inv ∧ s.fault = false ∧ s.phase = .final) := by
  refine ⟨?_, ?_, ?_, ?_, ?_, ?_, ?_, ?_, ?_, ?_, ?_, ?_, ?_, ?_, finalState, final_inv, rfl, rfl⟩ <;>
    simp [FirstFailed, Assigned]

theorem failedStateChecksFault :
    (∃ s : State, s.fault = false ∧ Violates (.absorb 0 0) s .absorbPhase ∧ Violates .final s .finalPhase ∧
      Violates .xof s .finalPhase ∧ Violates (.squeeze 0) s .squeezePhase ∧ Violates (.digest 0) s .digestPhase) ∧
    (∃ s : State, s.fault = false ∧ Violates (.digest 4) s .badImm ∧ Violates (.wrlane 0 0) s .rawPhase ∧
      Violates .permute s .rawPhase) :=
  ⟨⟨State.reset, rfl, .absorb _ _ _ (by decide), .final _ (by decide), .xof _ (by decide), .squeeze _ _ (by decide),
    .digestPhase _ _ (by decide)⟩,
   ⟨finalState, rfl, .digestRange _ _ rfl (by decide), .wrlane _ _ _ (by decide), .permute _ (by decide)⟩⟩

theorem latchRefusesAllButReads :
    ∃ (s : State) (t : Transaction), s.fault = true ∧ (Instr.rdlane 24).wf = true ∧ InReadOnlySet (.rdlane 24) ∧
      ¬ InReadOnlySet (.init 32) ∧ decode t = .error .badImm :=
  ⟨latched, ⟨0x30000001, 0, 0⟩, rfl, by decide, trivial, id, by decide⟩

theorem latchLastsUntilReset :
    ∃ (s t : State), s.fault = true ∧ 1 ≤ s.inbox.length ∧ (∀ e ∈ s.inbox.take 1, e.isReset = false) ∧
      core.run 1 s = .next t :=
  ⟨present ⟨0x01000020, 0, 0⟩ latched, _, rfl, by decide, by decide, rfl⟩

theorem noDataValueFaults :
    ∃ (s u s' u' : State), (Instr.absorb 8 1).op = (Instr.absorb 8 2).op ∧ s.phase = u.phase ∧ s.outlen = u.outlen ∧
      s.fault = false ∧ u.fault = false ∧ exec (.absorb 8 1) s = .next s' ∧ exec (.absorb 8 2) u = .next u' :=
  ⟨absorbingAt 32 0, absorbingAt 32 8, _, _, rfl, rfl, rfl, rfl, rfl, rfl, rfl⟩

theorem rdcntReturnsTheCount :
    ∃ s t u : State, exec (.init 32) s = .next t ∧ exec .discard s = .next u := ⟨State.reset, _, _, rfl, rfl⟩

theorem rdfaultReturnsFaultInfo : ∃ s : State, s.Inv ∧ s.fault = false := ⟨finalState, final_inv, rfl⟩

theorem rdidReturnsTheId : ∃ s t : State, s.datapath = .w64 ∧ t.datapath = .w32i :=
  ⟨State.reset, State.resetOf .w32i, rfl, rfl⟩

/-- The hypothesis of the six bit-primitive statements and of DISCARD's. -/
theorem latchClear : ∃ s : State, s.fault = false := ⟨State.reset, rfl⟩

theorem rdlaneReturnsTheLane : (0 : Imm).toNat ≤ 24 ∧ (24 : Imm).toNat ≤ 24 := by decide

theorem wrlaneStoresTheLane :
    ∃ s t : State, s.fault = false ∧ s.phase = .idle ∧ s.mem.wf = true ∧ (24 : Imm).toNat ≤ 24 ∧ t.fault = false ∧
      t.phase ≠ .idle := ⟨State.reset, finalState, rfl, rfl, rfl, by decide, rfl, by decide⟩

theorem permuteAppliesTheReference :
    ∃ s t : State, s.fault = false ∧ s.phase = .idle ∧ t.fault = false ∧ t.phase ≠ .idle :=
  ⟨State.reset, finalState, rfl, rfl, rfl, by decide⟩

theorem initStartsAContext :
    ∃ s : State, s.fault = false ∧ (16 : Imm).toNat ∈ [16, 28, 32, 48, 64] ∧ (64 : Imm).toNat ∈ [16, 28, 32, 48, 64] :=
  ⟨finalState, rfl, by decide, by decide⟩

/-- Within the block, up to its last byte, ending exactly there, and across it. -/
theorem absorbXorsTheBytes :
    (∃ s : State, s.Inv ∧ s.fault = false ∧ s.phase = .absorbing ∧
      s.pos.toNat + (8 : Imm).toNat < s.rate.toNat) ∧
    (∃ s : State, s.Inv ∧ s.fault = false ∧ s.phase = .absorbing ∧ s.rate.toNat = s.pos.toNat + (1 : Imm).toNat) ∧
    (∃ s : State, s.Inv ∧ s.fault = false ∧ s.phase = .absorbing ∧ s.rate.toNat ≤ s.pos.toNat + (8 : Imm).toNat) ∧
    (∃ s : State, s.fault = false ∧ s.phase ≠ .absorbing) :=
  ⟨⟨absorbingAt 32 0, absorbing_first, rfl, rfl, by decide⟩, ⟨absorbingAt 32 135, absorbing_last, rfl, rfl, by decide⟩,
   ⟨absorbingAt 64 71, absorbing_smallest, rfl, rfl, by decide⟩, ⟨finalState, rfl, by decide⟩⟩

theorem finalPadsAndPermutes :
    ∃ s t u : State, s.Inv ∧ s.fault = false ∧ s.phase = .absorbing ∧ s.pos.toNat + 1 = s.rate.toNat ∧
      t.Inv ∧ t.phase = .absorbing ∧ t.pos = 0 ∧ u.fault = false ∧ u.phase ≠ .absorbing :=
  ⟨absorbingAt 32 135, absorbingAt 32 0, State.reset, absorbing_last, rfl, rfl, by decide, absorbing_first, rfl, rfl, rfl,
    by decide⟩

theorem xofPadsAndSwitches :
    ∃ s u : State, s.Inv ∧ s.fault = false ∧ s.phase = .absorbing ∧ u.fault = false ∧ u.phase ≠ .absorbing :=
  ⟨absorbingAt 64 71, finalState, absorbing_smallest, rfl, rfl, rfl, by decide⟩

theorem squeezeReturnsTheBytes :
    (∃ s : State, s.Inv ∧ s.fault = false ∧ s.phase = .squeezing ∧ s.pos.toNat + (8 : Imm).toNat < s.rate.toNat) ∧
    (∃ s : State, s.Inv ∧ s.fault = false ∧ s.phase = .squeezing ∧ s.rate.toNat = s.pos.toNat + (1 : Imm).toNat) ∧
    (∃ s : State, s.fault = false ∧ s.phase ≠ .squeezing) :=
  ⟨⟨_, squeezing_first, rfl, rfl, by decide⟩, ⟨_, squeezing_last, rfl, rfl, by decide⟩, ⟨finalState, rfl, by decide⟩⟩

theorem digestReadsTheDigest :
    ∃ s t : State, s.fault = false ∧ s.phase = .final ∧ (3 : Imm).toNat ≤ 7 ∧ 8 * (3 : Imm).toNat < s.outlen.toNat ∧
      s.outlen.toNat ≤ 8 * (4 : Imm).toNat ∧ t.fault = false ∧ t.phase ≠ .final :=
  ⟨finalState, State.reset, rfl, rfl, by decide, by decide, by decide, rfl, by decide⟩

/-- A command that the table lets pass, one that it faults, and DIGEST past OUTLEN. -/
theorem phasesFollowTheTable :
    ∃ s t u v : State, s.fault = false ∧ exec .discard s = .next t ∧ phaseAfter s.phase .discard = some .idle ∧
      exec .final s = .next u ∧ phaseAfter s.phase .final = none ∧ exec (.digest 4) s = .next v :=
  ⟨finalState, _, _, _, rfl, rfl, rfl, rfl, rfl, rfl⟩

theorem roundStepsFollowTheirRules : ∃ x y ir : Nat, x < 5 ∧ y < 5 ∧ ir < 24 := ⟨4, 4, 23, by decide⟩

theorem permutationRunsTheRoundsOnTheLanes : ∃ i k : Nat, i < 25 ∧ k < 8 := ⟨24, 7, by decide⟩

theorem onlyRdidSeesTheDatapath :
    ∃ s t : State, step s = .next t ∧ s.datapath = .w32i ∧ (Instr.nop ≠ .rdid) :=
  ⟨present ⟨0, 0, 0⟩ (State.resetOf .w32i), _, rfl, rfl, by decide⟩

/-- A state that meets the invariants in each phase, and one with the latch set, each with a step. -/
theorem stepKeepsTheInvariants :
    (State.resetOf .w32i).Inv ∧ (absorbingAt 32 135).Inv ∧ finalState.Inv ∧ (squeezingAt 16 167 [(167, 0x0A)]).Inv ∧
      latched.Inv ∧ ∃ t, step latched = .next t :=
  ⟨reset_inv _, absorbing_last, final_inv, squeezing_last, latched_inv, _, rfl⟩

theorem stepAnswersUnderTheInvariants : ∃ s : State, s.Inv := ⟨absorbingAt 64 71, absorbing_smallest⟩

theorem runsAnswerEveryCommand : ∃ s : State, s.Inv ∧ s.inbox.length = 2 :=
  ⟨{ latched with inbox := [.issue ⟨0, 0, 0⟩, .cutByReset ⟨0, 0, 0⟩] },
    ⟨latched_inv.memory, latched_inv.context, latched_inv.latch⟩, rfl⟩

theorem everyCommandGivesOneResponse : ∃ s t : State, exec .rdstat s = .next t := ⟨latched, _, rfl⟩

theorem registersHaveTheirWriters :
    ∃ s t : State, exec .nop s = .next t ∧ Instr.nop.op ∉ [Op.init, .discard] ∧ s.fault = true :=
  ⟨latched, _, rfl, by decide, rfl⟩

theorem absorbingIsStreaming :
    ∃ (s : State) (ps qs : List (Imm × Word)), s.Inv ∧ s.fault = false ∧ s.phase = .absorbing ∧
      (∀ p ∈ ps, p.1.toNat ≤ 8) ∧ (∀ q ∈ qs, q.1.toNat ≤ 8) ∧ messageOf ps = messageOf qs ∧ ps ≠ qs :=
  ⟨absorbingAt 32 135, [(3, 0x636261)], [(1, 0x61), (0, 0), (2, 0x6362)], absorbing_last, rfl, rfl, by simp, by simp,
    by decide, by decide⟩

theorem squeezingIsStreaming :
    ∃ (s : State) (ns ms : List Imm), s.Inv ∧ s.fault = false ∧ s.phase = .squeezing ∧ (∀ n ∈ ns, n.toNat ≤ 8) ∧
      (∀ m ∈ ms, m.toNat ≤ 8) ∧ (ns.map fun n => n.toNat).sum = (ms.map fun m => m.toNat).sum ∧ ns ≠ ms :=
  ⟨_, [3, 0, 8], [5, 6], squeezing_last, rfl, rfl, by decide, by decide, by decide, by decide⟩

/-- A whole block of the smallest rate, 72 bytes, and a byte less. -/
theorem aFullBlockPermutesOnce :
    ∃ (s t : State) (ps qs : List (Imm × Word)), s.fault = false ∧ exec (.init 64) s = .next t ∧
      (∀ p ∈ ps ++ qs, p.1.toNat ≤ 8) ∧ (messageOf ps).length = 200 - 2 * (64 : Imm).toNat ∧
      (messageOf qs).length + 1 = 200 - 2 * (64 : Imm).toNat :=
  ⟨State.reset, _, List.replicate 9 (8, 1), List.replicate 8 (8, 1) ++ [(7, 1)], rfl, rfl,
    by
      intro p hp
      simp only [List.mem_append, List.mem_replicate, List.mem_singleton] at hp
      rcases hp with ⟨-, rfl⟩ | ⟨-, rfl⟩ | rfl <;> decide,
    by simp [messageOf, operandBytes], by simp [messageOf, operandBytes]⟩

theorem commandsComputeTheSponge :
    ∃ (s : State) (ps : List (Imm × Word)), s.fault = false ∧ (28 : Imm).toNat ∈ [16, 28, 32, 48, 64] ∧
      (∀ p ∈ ps, p.1.toNat ≤ 8) := ⟨State.reset, [(8, 1), (0, 0)], rfl, by decide, by simp⟩

/-- POS at the last byte that does not end the block. -/
theorem byteAndLaneViewsAgree :
    ∃ (s t u v : State) (r q : Word), s.Inv ∧ s.fault = false ∧ s.phase = .absorbing ∧
      s.pos.toNat + 1 < s.rate.toNat ∧ exec (.absorb 1 0xFF) s = .next t ∧
      exec (.rdlane (BitVec.ofNat 8 (s.pos.toNat / 8))) s = .next u ∧ u.responses = s.responses ++ [⟨true, r⟩] ∧
      exec (.rdlane (BitVec.ofNat 8 (s.pos.toNat / 8))) t = .next v ∧ v.responses = t.responses ++ [⟨true, q⟩] :=
  ⟨absorbingAt 32 134, _, _, _, 0, 0x00FF000000000000, ⟨rfl, ⟨by decide, by decide, by decide, rfl⟩, ⟨rfl, rfl⟩⟩, rfl,
    rfl, by decide, rfl, rfl, rfl, rfl, rfl⟩

theorem pseudoRotatesAndLoads : ∃ s : State, s.fault = false ∧ s.phase = .idle ∧ s.mem.wf = true :=
  ⟨State.reset, rfl, rfl, rfl⟩

theorem sha3CommandsGiveTheDigest : ∃ s : State, s.fault = false ∧ (28 : Imm).toNat ∈ [28, 32, 48, 64] :=
  ⟨finalState, rfl, by decide⟩

theorem shakeCommandsGiveTheStream : ∃ s : State, s.fault = false := ⟨finalState, rfl⟩

end Sys2Proof.Machine.Witness
end

section
/-! ## The two datapaths compute one permutation (41_permutation.md R131, R132) -/

namespace Sys2Proof.Machine

/-- Un-interleaving the halves of a list of lanes gives its 25 lanes back. -/
theorem ofPairs_toPairs (A : Lanes) : ofPairs (toPairs A) = Lanes.build A.get :=
  Lanes.build_congr fun i hi => by rw [halfAt_even A hi, halfAt_odd A hi, mergeHalves_halves]

/-- Any sequence of rounds on the halves of a state is the same sequence of 64-bit rounds on the state. -/
theorem foldl_pairsRound_toPairs (rounds : List Nat) (h : ∀ ir ∈ rounds, ir < 24) (A : Lanes) :
    rounds.foldl pairsRound (toPairs A) = toPairs (rounds.foldl keccakRound A) := by
  induction rounds generalizing A with
  | nil => rfl
  | cons ir rounds ih =>
    obtain ⟨hir, hrounds⟩ := List.forall_mem_cons.1 h
    rw [List.foldl_cons, List.foldl_cons, pairsRound_toPairs hir, ih hrounds]

/-- A built list of lanes is built from its own lanes. -/
theorem Lanes.build_get_build (f : Nat → Word) : Lanes.build (Lanes.build f).get = Lanes.build f :=
  Lanes.build_congr fun i hi => by rw [Lanes.get_build, if_pos hi]

/-- The permutation gives exactly 25 lanes, whatever list it is given, since iota of its last round does. -/
theorem build_get_permuteW64 (A : Lanes) : Lanes.build (permuteW64 A).get = permuteW64 A := by
  rw [permuteW64, show Config.roundCount = 23 + 1 from rfl, List.range_succ, List.foldl_concat, keccakRound, iota]
  exact Lanes.build_get_build _

/-- The W32I datapath computes the reference permutation on every list of lanes (R132). -/
theorem permuteW32I_eq_permuteW64 (A : Lanes) : permuteW32I A = permuteW64 A := by
  calc permuteW32I A = ofPairs (toPairs (permuteW64 A)) := by
        rw [permuteW32I, foldl_pairsRound_toPairs _ fun ir => List.mem_range.1, permuteW64]
    _ = permuteW64 A := by rw [ofPairs_toPairs, build_get_permuteW64]

/-- `P(S)` is the reference permutation on either datapath (R127, R132). -/
theorem permuteBy_eq_keccakP (dp : Config.Datapath) (m : Memory) : permuteBy dp m = keccakP m := by
  cases dp with
  | w64 => rfl
  | w32i => rw [permuteBy, permuteW32I_eq_permuteW64, keccakP]

end Sys2Proof.Machine
end

section
/-! ## A step keeps DATAPATH (00_scope.md R11, 70_reset_and_hazards.md R231) -/

namespace Sys2Proof.Machine

/-- How a step ends in a next state: waiting, a command performed, or a reset. -/
theorem step_next {s t : State} (h : step s = .next t) :
    (s.inbox = [] ∧ t = s) ∨
    (∃ tr rest, s.inbox = .issue tr :: rest ∧ runTransaction tr { s with inbox := rest } = .next t) ∨
    (∃ e rest, s.inbox = e :: rest ∧ e.isReset = true ∧ t = applyReset { s with inbox := rest }) := by
  unfold step nextEvent at h
  match hs : s.inbox with
  | [] => rw [hs] at h; exact .inl ⟨rfl, by simpa using h.symm⟩
  | .issue tr :: rest => rw [hs] at h; exact .inr (.inl ⟨tr, rest, rfl, h⟩)
  | .reset :: rest => rw [hs] at h; exact .inr (.inr ⟨_, rest, rfl, rfl, by simpa using h.symm⟩)
  | .cutByReset _ :: rest => rw [hs] at h; exact .inr (.inr ⟨_, rest, rfl, rfl, by simpa using h.symm⟩)

theorem exec_next_datapath {i : Instr} {s t : State} (h : exec i s = .next t) : t.datapath = s.datapath := by
  obtain ⟨-, -, rfl⟩ | ⟨-, -, rfl⟩ | ⟨-, rd, s', he, rfl⟩ := exec_next h
  · rfl
  · rfl
  · obtain ⟨-, -, -, hdp, -, -⟩ := effect_sameShell he
    exact hdp

@[simp] theorem rejectMalformed_datapath (cmd : CmdWord) (f : FaultCode) (s : State) :
    (rejectMalformed cmd f s).datapath = s.datapath := by
  unfold rejectMalformed; split <;> rfl

theorem runTransaction_next_datapath {tr : Transaction} {s t : State}
    (h : runTransaction tr s = .next t) : t.datapath = s.datapath := by
  unfold runTransaction at h
  split at h
  · exact exec_next_datapath h
  · cases h; simp

theorem step_next_datapath {s t : State} (h : step s = .next t) : t.datapath = s.datapath := by
  obtain ⟨-, rfl⟩ | ⟨tr, rest, -, hrun⟩ | ⟨e, rest, -, -, rfl⟩ := step_next h
  · rfl
  · have hdp := runTransaction_next_datapath hrun
    exact hdp
  · rfl

end Sys2Proof.Machine
end

section
/-! ## A change of datapath commutes with every command but RDID (00_scope.md R11, R132) -/

namespace Sys2Proof.Machine

/-- The same state on datapath `dp`. -/
def State.withDatapath (dp : Config.Datapath) (s : State) : State := { s with datapath := dp }

@[simp] theorem withDatapath_mem (dp : Config.Datapath) (s : State) : (s.withDatapath dp).mem = s.mem := rfl
@[simp] theorem withDatapath_pos (dp : Config.Datapath) (s : State) : (s.withDatapath dp).pos = s.pos := rfl
@[simp] theorem withDatapath_outlen (dp : Config.Datapath) (s : State) : (s.withDatapath dp).outlen = s.outlen := rfl
@[simp] theorem withDatapath_fault (dp : Config.Datapath) (s : State) : (s.withDatapath dp).fault = s.fault := rfl

/-- No check reads DATAPATH (R211 steps 4 and 5). -/
@[simp] theorem stateCheck_withDatapath (i : Instr) (dp : Config.Datapath) (s : State) :
    stateCheck i (s.withDatapath dp) = stateCheck i s := rfl

/-- `onDatapath` on what an effect gives: the same result word, the state on datapath `dp`. -/
def onDatapathResult {α : Type} (dp : Config.Datapath) (r : Except Fault (α × State)) : Except Fault (α × State) :=
  r.map fun p => (p.1, p.2.withDatapath dp)

theorem applyPermutation_withDatapath (dp : Config.Datapath) (s : State) :
    applyPermutation (s.withDatapath dp) = (applyPermutation s).withDatapath dp := by
  simp only [applyPermutation, State.withDatapath, permuteBy_eq_keccakP]

theorem advancePos_withDatapath (dp : Config.Datapath) (s : State) :
    advancePos (s.withDatapath dp) = (advancePos s).withDatapath dp := by
  by_cases hb : s.pos + 1 = s.rate
  · rw [advancePos_boundary s hb, advancePos_boundary _ (by exact hb), applyPermutation_withDatapath]; rfl
  · rw [advancePos_below s hb, advancePos_below _ (by exact hb)]; rfl

/-! ### The byte streams -/

theorem absorbByte_withDatapath (dp : Config.Datapath) (b : Byte) (s : State) :
    absorbByte b (s.withDatapath dp) = (absorbByte b s).map (State.withDatapath dp) := by
  rw [absorbByte, absorbByte, withDatapath_mem, withDatapath_pos]
  cases xorByte s.mem s.pos.toNat b with
  | ok m => exact congrArg Except.ok (advancePos_withDatapath dp { s with mem := m })
  | error f => rfl

theorem absorbBytes_withDatapath (dp : Config.Datapath) (bs : List Byte) (s : State) :
    absorbBytes bs (s.withDatapath dp) = (absorbBytes bs s).map (State.withDatapath dp) := by
  induction bs generalizing s with
  | nil => rfl
  | cons b bs ih =>
    rw [absorbBytes, absorbBytes, absorbByte_withDatapath]
    cases absorbByte b s with
    | ok t => exact ih t
    | error f => rfl

theorem squeezeByte_withDatapath (dp : Config.Datapath) (s : State) :
    squeezeByte (s.withDatapath dp) = onDatapathResult dp (squeezeByte s) := by
  rw [squeezeByte, squeezeByte, withDatapath_mem, withDatapath_pos, advancePos_withDatapath]
  cases readByte s.mem s.pos.toNat <;> rfl

theorem squeezeBytes_withDatapath (dp : Config.Datapath) (n : Nat) (s : State) :
    squeezeBytes n (s.withDatapath dp) = onDatapathResult dp (squeezeBytes n s) := by
  induction n generalizing s with
  | zero => rfl
  | succ n ih =>
    rw [squeezeBytes, squeezeBytes, squeezeByte_withDatapath]
    cases squeezeByte s with
    | error f => rfl
    | ok p =>
      obtain ⟨b, t⟩ := p
      simp only [onDatapathResult, Except.map, ih t]
      cases squeezeBytes n t <;> rfl

/-- The shared part of FINAL and XOF: the padding, the permutation and the new context registers (R153, R154). -/
theorem padAndPermute_withDatapath (dp : Config.Datapath) (d : Byte) (dom : Domain) (ph : Phase) (s : State) :
    ((padBlock d (s.withDatapath dp)).map fun m => ((0 : Word),
      { applyPermutation { s.withDatapath dp with mem := m } with pos := 0, domain := dom, phase := ph })) =
    onDatapathResult dp ((padBlock d s).map fun m => ((0 : Word),
      { applyPermutation { s with mem := m } with pos := 0, domain := dom, phase := ph })) := by
  have hpad : padBlock d (s.withDatapath dp) = padBlock d s := rfl
  rw [hpad]
  cases padBlock d s with
  | ok m =>
    have hperm := applyPermutation_withDatapath dp { s with mem := m }
    exact congrArg (fun t : State => Except.ok ((0 : Word), { t with pos := 0, domain := dom, phase := ph })) hperm
  | error f => rfl

/-! ### The commands -/

theorem effect_withDatapath {i : Instr} (hi : i ≠ .rdid) (dp : Config.Datapath) (s : State) :
    effect i (s.withDatapath dp) = onDatapathResult dp (effect i s) := by
  cases i with
  | rdid => exact absurd rfl hi
  | absorb n a =>
    rw [effect, effect, absorbBytes_withDatapath]
    cases absorbBytes (operandBytes n a) s <;> rfl
  | squeeze n =>
    rw [effect, effect, squeezeBytes_withDatapath]
    cases squeezeBytes n.toNat s <;> rfl
  | permute => exact congrArg (fun t => Except.ok (0, t)) (applyPermutation_withDatapath dp s)
  | final => exact padAndPermute_withDatapath dp 0x06 .fixed .final s
  | xof => exact padAndPermute_withDatapath dp 0x1F .xof .squeezing s
  | digest k =>
    rw [effect, effect, withDatapath_mem, withDatapath_outlen]
    cases memRead s.mem (8 * k.toNat) (min 8 (s.outlen.toNat - 8 * k.toNat)) <;> rfl
  | wrlane k a =>
    rw [effect, effect, withDatapath_mem]
    cases memWrite s.mem (8 * k.toNat) 8 a <;> rfl
  | rdlane k =>
    rw [effect, effect, withDatapath_mem]
    cases memRead s.mem (8 * k.toNat) 8 <;> rfl
  | nop | init | discard | ror32 | ror64 | andn | intlv | dintlv | irol | rdstat | rdcnt | rdfault => rfl

theorem complete_onDatapathResult (dp : Config.Datapath) (r : Except Fault (Word × State)) :
    complete (onDatapathResult dp r) = onDatapath dp (complete r) := by
  cases r <;> rfl

/-- The latch and the checks do not see DATAPATH, so a command whose effect does not see it does not (R78). -/
theorem perform_withDatapath {i : Instr} {f : State → Except Fault (Word × State)} {dp : Config.Datapath} {s : State}
    (hf : f (s.withDatapath dp) = onDatapathResult dp (f s)) :
    perform i f (s.withDatapath dp) = onDatapath dp (perform i f s) := by
  rw [perform, perform, hf, complete_onDatapathResult, withDatapath_fault, stateCheck_withDatapath]
  split
  · split
    · rfl
    · rfl
  · split
    · rfl
    · rfl

theorem exec_withDatapath {i : Instr} (hi : i ≠ .rdid) (dp : Config.Datapath) (s : State) :
    exec i (s.withDatapath dp) = onDatapath dp (exec i s) := by
  rw [exec_eq_perform, exec_eq_perform]
  exact perform_withDatapath (effect_withDatapath hi dp s)

/-- Settles O42: no step writes DATAPATH, and every command but RDID commutes with the change of datapath, since the W32I
datapath computes the reference permutation. -/
theorem onlyRdidSeesTheDatapath : Obligations.OnlyRdidSeesTheDatapath :=
  ⟨fun _ _ => step_next_datapath, fun _ s dp hi => exec_withDatapath hi dp s⟩

end Sys2Proof.Machine
end

section
/-! ## What an executed command writes (the "writes" column of 30_encoding.md R74) -/

namespace Sys2Proof.Machine

/-- The end of absorbing, S already padded: the permutation and the context registers of FINAL and XOF (R153, R154). -/
def endAbsorbing (dom : Domain) (ph : Phase) (s : State) : State :=
  { applyPermutation s with pos := 0, domain := dom, phase := ph }

/-- The state an executed command leaves: eight commands write, every other leaves the state it found (R74). -/
inductive Writes : Instr → State → State → Prop
  | nothing {i : Instr} {s : State}
      (hi : i.op ∉ [.init, .discard, .final, .xof, .absorb, .squeeze, .wrlane, .permute]) : Writes i s s
  | init (n : Imm) (s : State) : Writes (.init n) s (initContext n s)
  | discard (s : State) : Writes .discard s (clearContext s)
  | wrlane {k : Imm} {a : Word} {s : State} {m : Memory} (hm : memWrite s.mem (8 * k.toNat) 8 a = .ok m) :
      Writes (.wrlane k a) s { s with mem := m }
  | permute (s : State) : Writes .permute s (applyPermutation s)
  | absorb {n : Imm} {a : Word} {s t : State} (ht : absorbBytes (operandBytes n a) s = .ok t) :
      Writes (.absorb n a) s t
  | squeeze {n : Imm} {s t : State} {bs : List Byte} (ht : squeezeBytes n.toNat s = .ok (bs, t)) :
      Writes (.squeeze n) s t
  | final {s : State} {m : Memory} (hm : padBlock 0x06 s = .ok m) :
      Writes .final s (endAbsorbing .fixed .final { s with mem := m })
  | xof {s : State} {m : Memory} (hm : padBlock 0x1F s = .ok m) :
      Writes .xof s (endAbsorbing .xof .squeezing { s with mem := m })

theorem effect_writes {i : Instr} {s t : State} {rd : Word} (h : effect i s = .ok (rd, t)) : Writes i s t := by
  cases i with
  | init n => cases h; exact .init n s
  | discard => cases h; exact .discard s
  | permute => cases h; exact .permute s
  | absorb n a => obtain ⟨u, hu, hr⟩ := map_ok h; cases hr; exact .absorb hu
  | squeeze n => obtain ⟨p, hp, hr⟩ := map_ok h; cases hr; exact .squeeze hp
  | final => obtain ⟨m, hm, hr⟩ := map_ok h; cases hr; exact .final hm
  | xof => obtain ⟨m, hm, hr⟩ := map_ok h; cases hr; exact .xof hm
  | wrlane k a => obtain ⟨m, hm, hr⟩ := map_ok h; cases hr; exact .wrlane hm
  | digest k | rdlane k => obtain ⟨v, -, hr⟩ := map_ok h; cases hr; exact .nothing (by simp [Instr.op])
  | nop | ror32 | ror64 | andn | intlv | dintlv | irol | rdstat | rdid | rdcnt | rdfault =>
    cases h; exact .nothing (by simp [Instr.op])

/-- No command of the read-only set writes (R77). -/
theorem Writes.eq_of_readOnly {i : Instr} {s t : State} (h : Writes i s t) (hr : readOnly i.op = true) : t = s := by
  cases h with
  | nothing => rfl
  | init | discard | wrlane | permute | absorb | squeeze | final | xof => cases hr

/-! ### The registers a command is not named for (10_state.md R22 to R28, R33) -/

/-- From `s` to `t`, only the registers that the "writes" column names for the opcode have changed. -/
structure RegisterFrame (o : Op) (s t : State) : Prop where
  context : o ∉ [.init, .discard] → t.rate = s.rate ∧ t.outlen = s.outlen
  phase : o ∉ [.init, .discard, .final, .xof] → t.phase = s.phase ∧ t.domain = s.domain
  pos : o ∉ [.init, .discard, .final, .xof, .absorb, .squeeze] → t.pos = s.pos
  mem : o ∉ [.init, .discard, .final, .xof, .absorb, .squeeze, .wrlane, .permute] → t.mem = s.mem
  count : o ∉ [.final, .xof, .absorb, .squeeze, .permute] → t.permCount = s.permCount

theorem RegisterFrame.refl (o : Op) (s : State) : RegisterFrame o s s :=
  ⟨fun _ => ⟨rfl, rfl⟩, fun _ => ⟨rfl, rfl⟩, fun _ => rfl, fun _ => rfl, fun _ => rfl⟩

theorem RegisterFrame.respond {o : Op} {s t : State} (h : RegisterFrame o s t) (ok : Bool) (rd : Word) :
    RegisterFrame o s (respond ok rd t) :=
  ⟨h.context, h.phase, h.pos, h.mem, h.count⟩

theorem RegisterFrame.raiseFault {o : Op} {s t : State} (h : RegisterFrame o s t) (cmd : CmdWord) (f : FaultCode) :
    RegisterFrame o s (raiseFault cmd f t) :=
  ⟨h.context, h.phase, h.pos, h.mem, h.count⟩

/-- A byte stream moves POS, S and PERM_COUNT at most, and ABSORB and SQUEEZE are named for all three. -/
theorem SameContext.registerFrame {o : Op} {s t : State} (h : SameContext s t) (ho : o = .absorb ∨ o = .squeeze) :
    RegisterFrame o s t := by
  obtain ⟨-, hphase, hrate, houtlen, hdomain⟩ := h
  have hkeeps : (t.rate = s.rate ∧ t.outlen = s.outlen) ∧ t.phase = s.phase ∧ t.domain = s.domain :=
    ⟨⟨hrate, houtlen⟩, hphase, hdomain⟩
  obtain rfl | rfl := ho
  · exact ⟨fun _ => hkeeps.1, fun _ => hkeeps.2, by simp, by simp, by simp⟩
  · exact ⟨fun _ => hkeeps.1, fun _ => hkeeps.2, by simp, by simp, by simp⟩

theorem Writes.registerFrame {i : Instr} {s t : State} (h : Writes i s t) : RegisterFrame i.op s t := by
  cases h with
  | nothing => exact .refl _ s
  | absorb ht => exact (sameContext_absorbBytes ht).registerFrame (.inl rfl)
  | squeeze ht => exact (sameContext_squeezeBytes ht).registerFrame (.inr rfl)
  | init | discard | wrlane | permute | final | xof => constructor <;> simp [Instr.op, endAbsorbing]

/-- A response, a refusal and a fault write no register but those of the latch, so the effect decides (R78, R210). -/
theorem exec_registerFrame {i : Instr} {s t : State} (h : exec i s = .next t) : RegisterFrame i.op s t := by
  obtain ⟨-, -, rfl⟩ | ⟨-, -, rfl⟩ | ⟨-, rd, u, he, rfl⟩ := exec_next h
  · exact (RegisterFrame.refl _ s).respond false 0
  · exact (RegisterFrame.refl _ s).raiseFault _ _
  · exact (effect_writes he).registerFrame.respond true rd

/-- A set latch stays as it is: only reset clears it (R213). -/
theorem exec_keeps_latch {i : Instr} {s t : State} (h : exec i s = .next t) (hf : s.fault = true) :
    t.fault = true ∧ t.fcode = s.fcode ∧ t.fcmd = s.fcmd := by
  obtain ⟨-, -, rfl⟩ | ⟨hclear, -, -⟩ | ⟨-, rd, u, he, rfl⟩ := exec_next h
  · exact ⟨hf, rfl, rfl⟩
  · simp [hf] at hclear
  · obtain ⟨hfault, hfcode, hfcmd, -⟩ := effect_sameShell he
    exact ⟨hfault.trans hf, hfcode, hfcmd⟩

/-- Settles O48, from the frame of what each command writes. -/
theorem registersHaveTheirWriters : Obligations.RegistersHaveTheirWriters := fun _ _ _ h =>
  have hframe := exec_registerFrame h
  ⟨hframe.context, hframe.phase, hframe.pos, hframe.mem, hframe.count, exec_keeps_latch h⟩

end Sys2Proof.Machine
end

section
/-! ## The codes the checks record (60_exceptions.md R210, R211) -/

namespace Sys2Proof.Machine

theorem decode_error {tr : Transaction} {f : FaultCode} (h : decode tr = .error f) :
    staticCheck tr.cmd = f ∧ f ≠ .none := by
  unfold decode at h
  split at h
  · rename_i ho
    cases h
    exact ⟨by rw [staticCheck, ho], by decide⟩
  · split at h
    · cases h
    · rename_i hne
      cases h
      exact ⟨rfl, hne⟩

/-- Of a word that fails StaticCheck the later checks are not made. -/
theorem checkCode_malformed {cmd : CmdWord} (h : staticCheck cmd ≠ .none) (s : State) :
    checkCode cmd s = staticCheck cmd := by
  unfold checkCode
  split
  · rename_i ho; rw [staticCheck, ho]
  · split
    · contradiction
    · rfl

/-- A decoded instruction's immediate passes the static check of its opcode. -/
theorem immCheck_of_decode {tr : Transaction} {i : Instr} (h : decode tr = .ok i) : immCheck i.op i.imm = .none := by
  obtain ⟨o, -, -, himm, rfl⟩ := decode_ok h
  rw [Op.op_instr, Op.imm_instr himm]
  exact himm

/-- The encoded word of a legal instruction fails exactly the checks that the instruction fails. -/
theorem checkCode_cmdWord {i : Instr} (h : immCheck i.op i.imm = .none) (s : State) :
    checkCode i.cmdWord s = stateCheck i s := by
  obtain ⟨hop, hrsv, himm⟩ := i.cmdWord_fields
  have hstatic : staticCheck i.cmdWord = .none := by simp [staticCheck, hop, hrsv, himm, Op.ofCode_code, h]
  cases hphase : phaseCheck i.op s.phase <;>
    simp only [checkCode, stateCheck, hop, himm, Op.ofCode_code, hstatic, hphase]

theorem phaseCheck_of_stateCheck {i : Instr} {s : State} (h : stateCheck i s = .none) :
    phaseCheck i.op s.phase = .none := by
  unfold stateCheck at h
  split at h
  · assumption
  · contradiction

/-- A phase check that passes says the phase. -/
theorem phase_of_codeUnless {p q : Phase} {f : FaultCode} (hf : f ≠ .none) (h : codeUnless (p == q) f = .none) :
    p = q := by
  simpa using (Laws.ImmLegal.codeUnless_none _ hf).1 h

end Sys2Proof.Machine
end

section
/-! ## The invariants of a command boundary (10_state.md R29, R31, R32, 20_memory.md R50) -/

namespace Sys2Proof.Machine

/-- Settles O43: S is empty, the registers are the IDLE row of R29, and the latch is clear. -/
theorem resetMeetsTheInvariants : Obligations.ResetMeetsTheInvariants := fun _ =>
  ⟨Memory.wf_nil, ⟨rfl, rfl, rfl, rfl⟩, rfl, rfl⟩

/-- The invariants are about the registers and S alone: a response changes neither. -/
theorem respond_inv {s : State} (h : s.Inv) (ok : Bool) (rd : Word) : (respond ok rd s).Inv :=
  ⟨h.memory, h.context, h.latch⟩

theorem applyReset_inv (s : State) : (applyReset s).Inv :=
  have hreset := resetMeetsTheInvariants s.datapath
  ⟨hreset.memory, hreset.context, hreset.latch⟩

/-- Entry to the fault state records the code that the recorded word fails with (R210). -/
theorem raiseFault_inv {s : State} (h : s.Inv) {cmd : CmdWord} {f : FaultCode} (hne : f ≠ .none)
    (hcode : checkCode cmd s = f) : (raiseFault cmd f s).Inv :=
  ⟨h.memory, h.context, hne, hcode⟩

/-- A word that fails StaticCheck is refused or faults with its static code (R78). -/
theorem rejectMalformed_inv {s : State} (h : s.Inv) {tr : Transaction} {f : FaultCode} (hf : decode tr = .error f) :
    (rejectMalformed tr.cmd f s).Inv := by
  obtain ⟨rfl, hne⟩ := decode_error hf
  unfold rejectMalformed
  split
  · exact respond_inv h false 0
  · exact raiseFault_inv h hne (checkCode_malformed hne s)

/-! ### The streaming rows of R29 -/

/-- The RATE that INIT computes in 8 bits is the one of R29, and no block is empty. -/
theorem rate_of_supported : ∀ n ∈ supportedOutLens,
    (200 - 2 * n : BitVec 8).toNat = 200 - 2 * n.toNat ∧ 0 < 200 - 2 * n.toNat := by decide

/-- A row of R29 with POS inside a block, and DOMAIN as given: ABSORBING and SQUEEZING have one. -/
structure Streaming (d : Domain) (s : State) : Prop where
  outlen : s.outlen ∈ supportedOutLens
  rate : s.rate.toNat = 200 - 2 * s.outlen.toNat
  pos : s.pos.toNat < s.rate.toNat
  domain : s.domain = d

/-- DOMAIN in the phases in which a byte stream is under way (R28, R29). -/
def streamDomain : Phase → Option Domain
  | .absorbing => some .none
  | .squeezing => some .xof
  | .idle | .final => none

theorem contextOk_iff_streaming {d : Domain} {s : State} (hd : streamDomain s.phase = some d) :
    s.ContextOk ↔ Streaming d s := by
  have hrow : s.ContextOk ↔ s.outlen ∈ supportedOutLens ∧ s.rate.toNat = 200 - 2 * s.outlen.toNat ∧
      s.pos.toNat < s.rate.toNat ∧ s.domain = d := by
    unfold State.ContextOk
    cases hp : s.phase with
    | absorbing | squeezing => rw [hp] at hd; cases hd; exact Iff.rfl
    | idle | final => rw [hp] at hd; cases hd
  rw [hrow]
  exact ⟨fun ⟨houtlen, hrate, hpos, hdomain⟩ => ⟨houtlen, hrate, hpos, hdomain⟩,
    fun h => ⟨h.outlen, h.rate, h.pos, h.domain⟩⟩

theorem Streaming.ready {d : Domain} {s : State} (h : Streaming d s) (hm : s.mem.wf = true) : Ready s :=
  ⟨hm, h.pos, by have := h.rate; omega⟩

/-- FINAL and XOF keep the context of the block they close, with POS at its start. -/
theorem Streaming.endAbsorbing {d : Domain} {s : State} (h : Streaming d s) (dom : Domain) (ph : Phase) (m : Memory) :
    Streaming dom (endAbsorbing dom ph { s with mem := m }) :=
  ⟨h.outlen, h.rate, Nat.zero_lt_of_lt h.pos, rfl⟩

/-! ### Executed commands -/

/-- S in canonical form and the context row of R29: the invariants of what an effect writes. -/
structure BodyOk (s : State) : Prop where
  memory : s.mem.wf = true
  context : s.ContextOk

/-- A byte stream begun in a row of R29 and still ready is in the same row. -/
theorem BodyOk.of_sameContext {d : Domain} {s t : State} (h : BodyOk s) (hd : streamDomain s.phase = some d)
    (hc : SameContext s t) (hr : Ready t) : BodyOk t := by
  have hs := (contextOk_iff_streaming hd).1 h.context
  obtain ⟨-, hphase, hrate, houtlen, hdomain⟩ := hc
  have ht : Streaming d t :=
    ⟨houtlen ▸ hs.outlen, by rw [hrate, houtlen, hs.rate], hr.pos, hdomain.trans hs.domain⟩
  exact ⟨hr.mem, (contextOk_iff_streaming (hphase ▸ hd)).2 ht⟩

theorem BodyOk.ready {d : Domain} {s : State} (h : BodyOk s) (hd : streamDomain s.phase = some d) : Ready s :=
  ((contextOk_iff_streaming hd).1 h.context).ready h.memory

theorem BodyOk.absorbBytes {s t : State} {bs : List Byte} (h : BodyOk s) (hp : s.phase = .absorbing)
    (ht : absorbBytes bs s = .ok t) : BodyOk t := by
  have hd : streamDomain s.phase = some .none := hp ▸ rfl
  obtain ⟨u, hu, hready⟩ := absorbBytes_ready (h.ready hd) bs
  cases hu.symm.trans ht
  exact h.of_sameContext hd (sameContext_absorbBytes ht) hready

theorem BodyOk.squeezeBytes {s t : State} {n : Nat} {bs : List Byte} (h : BodyOk s) (hp : s.phase = .squeezing)
    (ht : squeezeBytes n s = .ok (bs, t)) : BodyOk t := by
  have hd : streamDomain s.phase = some .xof := hp ▸ rfl
  obtain ⟨_, u, hu, -, hready⟩ := squeezeBytes_ready (h.ready hd) n
  cases hu.symm.trans ht
  exact h.of_sameContext hd (sameContext_squeezeBytes ht) hready

theorem BodyOk.streaming_of_absorbing {s : State} (h : BodyOk s) (hp : s.phase = .absorbing) : Streaming .none s :=
  (contextOk_iff_streaming (hp ▸ rfl)).1 h.context

theorem bodyOk_initContext {n : Imm} (hn : n ∈ supportedOutLens) (s : State) : BodyOk (initContext n s) := by
  obtain ⟨hrate, hpos⟩ := rate_of_supported n hn
  exact ⟨Memory.wf_nil, (contextOk_iff_streaming rfl).2 ⟨hn, hrate, hrate ▸ hpos, rfl⟩⟩

theorem wf_of_memWrite {m m' : Memory} {j n : Nat} {v : Word} (h : m.wf = true) (hw : memWrite m j n v = .ok m') :
    m'.wf = true := by
  unfold memWrite at hw
  split at hw
  · rename_i hj
    cases hw
    exact Memory.wf_writeBytes _ h (by simpa using hj)
  · cases hw

/-- The phase check puts a streaming command in its row of R29, and each command writes the row of its new phase. -/
theorem Writes.bodyOk {i : Instr} {s t : State} (hw : Writes i s t) (h : BodyOk s)
    (himm : immCheck i.op i.imm = .none) (hphase : phaseCheck i.op s.phase = .none) : BodyOk t := by
  cases hw with
  | nothing => exact h
  | init n =>
    have hn : n ∈ supportedOutLens := by simpa [Instr.wf] using (Laws.ImmLegal.init n).2 himm
    exact bodyOk_initContext hn s
  | discard => exact ⟨Memory.wf_nil, rfl, rfl, rfl, rfl⟩
  | wrlane hm => exact ⟨wf_of_memWrite h.memory hm, h.context⟩
  | permute => exact ⟨wf_permuteBy _ _, h.context⟩
  | absorb ht => exact h.absorbBytes (phase_of_codeUnless (by decide) hphase) ht
  | squeeze ht => exact h.squeezeBytes (phase_of_codeUnless (by decide) hphase) ht
  | @final _ m =>
    have hs := h.streaming_of_absorbing (phase_of_codeUnless (by decide) hphase)
    have hend := hs.endAbsorbing .fixed .final m
    exact ⟨wf_permuteBy _ _, hend.outlen, hend.rate, rfl, hend.domain⟩
  | @xof _ m =>
    have hs := h.streaming_of_absorbing (phase_of_codeUnless (by decide) hphase)
    exact ⟨wf_permuteBy _ _, (contextOk_iff_streaming rfl).2 (hs.endAbsorbing .xof .squeezing m)⟩

/-- No effect touches the fault registers, so a clear latch stays clear. -/
theorem SameShell.latchOk {s t : State} (h : SameShell s t) (hf : s.fault = false) (hs : s.LatchOk) : t.LatchOk := by
  obtain ⟨hfault, hfcode, hfcmd, -⟩ := h
  simpa [State.LatchOk, hfault, hfcode, hfcmd, hf] using hs

/-! ### The step -/

theorem exec_next_inv {i : Instr} {s t : State} (h : s.Inv) (himm : immCheck i.op i.imm = .none)
    (he : exec i s = .next t) : t.Inv := by
  obtain ⟨-, -, rfl⟩ | ⟨-, hne, rfl⟩ | ⟨hmay, rd, u, hu, rfl⟩ := exec_next he
  · exact respond_inv h false 0
  · exact raiseFault_inv h hne (checkCode_cmdWord himm s)
  · have hwrites := effect_writes hu
    obtain ⟨hclear, hcheck⟩ | ⟨-, hread⟩ := hmay
    · have hbody := hwrites.bodyOk ⟨h.memory, h.context⟩ himm (phaseCheck_of_stateCheck hcheck)
      have hlatch := (effect_sameShell hu).latchOk hclear h.latch
      exact respond_inv ⟨hbody.memory, hbody.context, hlatch⟩ true rd
    · rw [hwrites.eq_of_readOnly hread]
      exact respond_inv h true rd

theorem runTransaction_next_inv {tr : Transaction} {s t : State} (h : s.Inv)
    (hrun : runTransaction tr s = .next t) : t.Inv := by
  unfold runTransaction at hrun
  split at hrun
  · rename_i hd
    exact exec_next_inv h (immCheck_of_decode hd) hrun
  · rename_i hd
    cases hrun
    exact rejectMalformed_inv h hd

/-- Settles O44, by the ways a step can end: the block waits, performs a command, or is reset. -/
theorem stepKeepsTheInvariants : Obligations.StepKeepsTheInvariants := fun s t h hstep => by
  obtain ⟨-, rfl⟩ | ⟨tr, rest, -, hrun⟩ | ⟨e, rest, -, -, rfl⟩ := step_next hstep
  · exact h
  · have htaken : State.Inv { s with inbox := rest } := ⟨h.memory, h.context, h.latch⟩
    exact runTransaction_next_inv htaken hrun
  · exact applyReset_inv _

end Sys2Proof.Machine
end

section
/-! ## S by bytes and by lanes (20_memory.md R55, R56) -/

namespace Sys2Proof.Machine

/-- The statements' byte of a word is the model's: both are bits 8j+7..8j (R55). -/
theorem byteAt_eq_byteOfWord (w : Word) (j : Nat) : byteAt w j = byteOfWord w j := by
  rw [byteAt, ← Nat.shiftRight_eq_div_pow]; rfl

theorem Memory.byteAt_word (m : Memory) (j : Nat) {k : Nat} (hk : k < 8) : byteAt (m.word j 8) k = m.read (j + k) := by
  rw [byteAt_eq_byteOfWord, byteOfWord_word m j 8 k hk, if_pos hk]

theorem length_operandBytes (n : Imm) (a : Word) : (operandBytes n a).length = n.toNat := by simp [operandBytes]

/-- RDLANE answers the lane it names in every state (R136). -/
theorem exec_rdlane {i : Imm} (hi : i.toNat < 25) (s : State) :
    exec (.rdlane i) s = .next (respond true (s.mem.word (8 * i.toNat) 8) s) := by
  refine exec_readOnly rfl rfl ?_
  rw [effect, memRead_ok s.mem (by omega)]; rfl

/-- The result of RDLANE, read off its response: byte k is S[8i + k]. -/
theorem byteAt_rdlane {i : Imm} {s u : State} {r : Word} (hi : i.toNat < 25) (h : exec (.rdlane i) s = .next u)
    (hr : u.responses = s.responses ++ [⟨true, r⟩]) {k : Nat} (hk : k < 8) :
    byteAt r k = s.mem.read (8 * i.toNat + k) := by
  rw [exec_rdlane hi] at h
  cases h
  obtain rfl : s.mem.word (8 * i.toNat) 8 = r := by simpa using hr
  exact s.mem.byteAt_word _ hk

/-- An ABSORB that ends before the block does XORs its bytes in and moves POS past them (R151, R152). -/
theorem exec_absorb_within {n : Imm} {s : State} (a : Word) (hf : s.fault = false) (hp : s.phase = .absorbing)
    (h : Ready s) (hn : s.pos.toNat + n.toNat < s.rate.toNat) :
    exec (.absorb n a) s =
      .next (respond true 0 { s with mem := xorBytes s.mem s.pos.toNat (operandBytes n a), pos := s.pos + n }) := by
  refine exec_runs hf (by rw [stateCheck, hp]; rfl) ?_
  rw [effect, absorbBytes_within _ h (by rwa [length_operandBytes]), length_operandBytes, BitVec.ofNat_toNat,
    BitVec.setWidth_eq]
  rfl

/-- S after one absorbed byte that does not end the block: that byte lands at POS, and no other byte changes. -/
theorem read_absorb_one {a : Word} {s t : State} (hf : s.fault = false) (hp : s.phase = .absorbing) (h : Ready s)
    (hn : s.pos.toNat + 1 < s.rate.toNat) (ht : exec (.absorb 1 a) s = .next t) (j : Nat) :
    t.mem.read j = s.mem.read j ^^^ (if j = s.pos.toNat then byteAt a 0 else 0) := by
  rw [exec_absorb_within (n := 1) a hf hp h hn] at ht
  cases ht
  have hone : operandBytes 1 a = [byteAt a 0] := by rw [byteAt_eq_byteOfWord]; rfl
  rw [respond_mem, hone]
  exact read_xor h.mem s.pos.toNat j (byteAt a 0)

/-- Settles O53: both lanes read are the bytes 8(POS div 8) + k of S, before and after, and ABSORB changes the one of them
at POS, which is byte POS mod 8 of the lane. -/
theorem byteAndLaneViewsAgree : Obligations.ByteAndLaneViewsAgree := by
  intro a s t u v r q hinv hf hp hend ht hu hr hv hq k hk
  have hready : Ready s := BodyOk.ready ⟨hinv.memory, hinv.context⟩ (d := .none) (hp ▸ rfl)
  have hpos := hready.pos_lt
  have hlane : (BitVec.ofNat 8 (s.pos.toNat / 8)).toNat = s.pos.toNat / 8 := by rw [BitVec.toNat_ofNat]; omega
  have hlt : (BitVec.ofNat 8 (s.pos.toNat / 8)).toNat < 25 := by omega
  have hbyte : 8 * (s.pos.toNat / 8) + k = s.pos.toNat ↔ k = s.pos.toNat % 8 := by omega
  rw [byteAt_rdlane hlt hv hq hk, byteAt_rdlane hlt hu hr hk, hlane, read_absorb_one hf hp hready hend ht]
  simp only [hbyte]

end Sys2Proof.Machine
end

section
/-! ## Encoding and decoding (30_encoding.md R71 to R76) -/

namespace Sys2Proof

/-- The immediates an instruction admits are those its opcode's static check passes (R74, R211 step 3). -/
theorem Instr.wf_iff_immCheck (i : Instr) : i.wf = true ↔ immCheck i.op i.imm = .none := by
  cases i with
  | nop => exact Laws.ImmLegal.nop
  | init n => exact Laws.ImmLegal.init n
  | absorb n a => exact Laws.ImmLegal.absorb n a
  | final => exact Laws.ImmLegal.final
  | xof => exact Laws.ImmLegal.xof
  | squeeze n => exact Laws.ImmLegal.squeeze n
  | digest k => exact Laws.ImmLegal.digest k
  | discard => exact Laws.ImmLegal.discard
  | wrlane k a => exact Laws.ImmLegal.wrlane k a
  | rdlane k => exact Laws.ImmLegal.rdlane k
  | permute => exact Laws.ImmLegal.permute
  | ror32 n a => exact Laws.ImmLegal.ror32 n a
  | ror64 n a => exact Laws.ImmLegal.ror64 n a
  | andn a b => exact Laws.ImmLegal.andn a b
  | intlv a => exact Laws.ImmLegal.intlv a
  | dintlv a => exact Laws.ImmLegal.dintlv a
  | irol n a => exact Laws.ImmLegal.irol n a
  | rdstat => exact Laws.ImmLegal.rdstat
  | rdid => exact Laws.ImmLegal.rdid
  | rdcnt => exact Laws.ImmLegal.rdcnt
  | rdfault => exact Laws.ImmLegal.rdfault

/-- Settles O6: the encoded word has the opcode, a zero reserved field and the immediate of the instruction, which is
legal, and an instruction is its opcode, its immediate and its operand words. -/
theorem decodeOfEncodeIsTheInstruction : Obligations.DecodeOfEncodeIsTheInstruction := by
  intro i hwf
  obtain ⟨hop, hrsv, himm⟩ := i.cmdWord_fields
  have hcode : Op.ofCode (encode i).cmd.op = some i.op := by rw [encode, hop, Op.ofCode_code]
  have hlegal : immCheck i.op (encode i).cmd.imm = .none := by rw [encode, himm]; exact i.wf_iff_immCheck.1 hwf
  calc decode (encode i) = .ok (i.op.instr (encode i).cmd.imm i.operandA i.operandB) := decode_legal hcode hrsv hlegal
    _ = .ok i := by rw [encode, himm, i.instr_fields]

/-! ### The operand words an opcode reads (the "reads" column of R74) -/

section
open Machine

theorem Op.operandA_instr (o : Op) (imm : Imm) (a b : Word) :
    (readsA o.code.toNat → (o.instr imm a b).operandA = a) ∧
    (¬ readsA o.code.toNat → (o.instr imm a b).operandA = 0) := by
  cases o <;> simp [readsA, Op.code, Op.instr, Instr.operandA]

theorem Op.operandB_instr (o : Op) (imm : Imm) (a b : Word) :
    (readsB o.code.toNat → (o.instr imm a b).operandB = b) ∧
    (¬ readsB o.code.toNat → (o.instr imm a b).operandB = 0) := by
  cases o <;> simp [readsB, Op.code, Op.instr, Instr.operandB]

/-- The immediate and the operand words read fix the instruction of an opcode. -/
theorem Op.instr_congr {o : Op} {a a' b b' : Word} (imm : Imm) (ha : readsA o.code.toNat → a = a')
    (hb : readsB o.code.toNat → b = b') : o.instr imm a b = o.instr imm a' b' := by
  cases o with
  | absorb | wrlane | ror32 | ror64 | intlv | dintlv | irol =>
    obtain rfl := ha (by simp [readsA, Op.code])
    rfl
  | andn =>
    obtain rfl := ha (by simp [readsA, Op.code])
    obtain rfl := hb (by simp [readsB, Op.code])
    rfl
  | nop | init | final | xof | squeeze | digest | discard | rdlane | permute | rdstat | rdid | rdcnt | rdfault => rfl

/-- The opcode field of a transaction with an assigned opcode, as a number. -/
theorem opField_of_ofCode {t : Transaction} {o : Op} (h : Op.ofCode t.cmd.op = some o) : opField t = o.code.toNat := by
  rw [← Op.code_of_ofCode h, CmdWord.toNat_op, opField]

/-- A command word with no reserved bit set is its opcode and its immediate. -/
theorem CmdWord.eq_of_rsv_zero {c : CmdWord} (h : CmdWord.rsv c = 0) :
    (CmdWord.op c ++ (0 : BitVec 16) ++ CmdWord.imm c : BitVec 32) = c := by
  rw [← h]; exact c.eq_fields.symm

/-- Settles O7: the word is its three fields, of which the reserved one is zero, and the instruction keeps the immediate
and the operand words its opcode reads. -/
theorem encodeOfDecodeIsTheTransaction : Obligations.EncodeOfDecodeIsTheTransaction := by
  intro t i h
  have hwf : i.wf = true := i.wf_iff_immCheck.2 (immCheck_of_decode h)
  obtain ⟨o, ho, hrsv, himm, rfl⟩ := decode_ok h
  have hcmd : (encode (o.instr t.cmd.imm t.a t.b)).cmd = t.cmd := by
    rw [encode, Instr.cmdWord, Op.op_instr, Op.imm_instr himm, ← Op.code_of_ofCode ho]
    exact CmdWord.eq_of_rsv_zero hrsv
  obtain ⟨hread, hnoread⟩ := o.operandA_instr t.cmd.imm t.a t.b
  obtain ⟨hreadB, hnoreadB⟩ := o.operandB_instr t.cmd.imm t.a t.b
  rw [opField_of_ofCode ho]
  exact ⟨hwf, hcmd, hread, hnoread, hreadB, hnoreadB⟩

/-- Two transactions that differ at most in operand words not read decode alike (R76). -/
theorem decode_congr {t t' : Transaction} (hcmd : t.cmd = t'.cmd) (ha : readsA (opField t) → t.a = t'.a)
    (hb : readsB (opField t) → t.b = t'.b) : decode t = decode t' := by
  unfold decode
  rw [← hcmd]
  cases ho : Op.ofCode t.cmd.op with
  | none => rfl
  | some o =>
    rw [opField_of_ofCode ho] at ha hb
    simp only [Op.instr_congr t.cmd.imm ha hb]

end

/-- Settles O9: the eight words, decoded. -/
theorem writtenWordsDecode : Obligations.WrittenWordsDecode := by
  unfold Obligations.WrittenWordsDecode
  decide

end Sys2Proof
end

section
/-! ## One command of the host (30_encoding.md R70, R76, R78) -/

namespace Sys2Proof.Machine

/-! ### The step that takes it -/

/-- The step takes the transaction off the list and runs it. -/
theorem step_issue {s : State} {t : Transaction} {rest : List HostEvent} (h : s.inbox = .issue t :: rest) :
    step s = runTransaction t { s with inbox := rest } := by
  rw [step, nextEvent, h]

theorem step_present (t : Transaction) (s : State) : step (present t s) = runTransaction t s :=
  step_issue (present_inbox t s)

theorem runTransaction_ok {t : Transaction} {i : Instr} (h : decode t = .ok i) (s : State) :
    runTransaction t s = exec i s := by
  rw [runTransaction, h]

theorem runTransaction_error {t : Transaction} {f : FaultCode} (h : decode t = .error f) (s : State) :
    runTransaction t s = .next (rejectMalformed t.cmd f s) := by
  rw [runTransaction, h]

theorem decode_of_decodeTableWord {nbits w : Nat} {i : Instr} (h : decodeTableWord nbits w = some i) :
    decode (transactionOfBits nbits w) = .ok i := by
  unfold decodeTableWord at h
  split at h
  · rename_i hd; cases h; exact hd
  · cases h

/-- Settles O3: a step runs the transaction it takes, and running one that decodes is exec. -/
theorem stepRunsTheDecodedCommand : Obligations.StepRunsTheDecodedCommand := by
  refine ⟨fun s t rest i hinbox hd => ?_, fun s nbits w i hw => ?_⟩
  · rw [step_issue hinbox, runTransaction_ok hd]
  · rw [State.withFetchWord, step_present, runTransaction_ok (decode_of_decodeTableWord hw)]

/-! ### The response it gets -/

@[simp] theorem rejectMalformed_responses (cmd : CmdWord) (f : FaultCode) (s : State) :
    (rejectMalformed cmd f s).responses = s.responses ++ [⟨false, 0⟩] := by
  unfold rejectMalformed; split <;> rfl

/-- The response of a command with no result (R76). -/
theorem effect_no_result {i : Instr} {s t : State} {rd : Word} (hi : ¬ givesResult i) (h : effect i s = .ok (rd, t)) :
    rd = 0 := by
  cases i with
  | nop | init | discard | permute => cases h; rfl
  | absorb | final | xof | wrlane => obtain ⟨v, -, hr⟩ := map_ok h; cases hr; rfl
  | squeeze | digest | rdlane | ror32 | ror64 | andn | intlv | dintlv | irol | rdstat | rdid | rdcnt | rdfault =>
    exact absurd trivial hi

/-- How a command responds: (0, 0) where it is refused or faults, else (1, rd) with the result of its effect (R70, R210,
R212). -/
theorem exec_responds {i : Instr} {s t : State} (h : exec i s = .next t) :
    t.responses = s.responses ++ [⟨false, 0⟩] ∨
    ∃ rd u, effect i s = .ok (rd, u) ∧ t.responses = s.responses ++ [⟨true, rd⟩] := by
  obtain ⟨-, -, rfl⟩ | ⟨-, -, rfl⟩ | ⟨-, rd, u, he, rfl⟩ := exec_next h
  · exact .inl rfl
  · exact .inl rfl
  · obtain ⟨-, -, -, -, -, hresponses⟩ := effect_sameShell he
    exact .inr ⟨rd, u, he, by rw [respond_responses, hresponses]⟩

theorem exec_no_result {i : Instr} {s u : State} {r : Response} (h : exec i s = .next u)
    (hr : u.responses = s.responses ++ [r]) (hok : r.ok = true) (hi : ¬ givesResult i) : r.rd = 0 := by
  obtain hno | ⟨rd, v, he, hyes⟩ := exec_responds h
  · obtain rfl : (⟨false, 0⟩ : Response) = r := by simpa using hno.symm.trans hr
    cases hok
  · obtain rfl : (⟨true, rd⟩ : Response) = r := by simpa using hyes.symm.trans hr
    exact effect_no_result hi he

theorem runTransaction_not_ok {t : Transaction} {s u : State} {r : Response} (h : runTransaction t s = .next u)
    (hr : u.responses = s.responses ++ [r]) (hok : r.ok = false) : r.rd = 0 := by
  have hzero : u.responses = s.responses ++ [⟨false, 0⟩] → r.rd = 0 := fun hno => by
    obtain rfl : (⟨false, 0⟩ : Response) = r := by simpa using hno.symm.trans hr
    rfl
  cases hd : decode t with
  | error f =>
    rw [runTransaction_error hd] at h
    cases h
    exact hzero (rejectMalformed_responses t.cmd f s)
  | ok i =>
    rw [runTransaction_ok hd] at h
    obtain hno | ⟨rd, v, -, hyes⟩ := exec_responds h
    · exact hzero hno
    · obtain rfl : (⟨true, rd⟩ : Response) = r := by simpa using hyes.symm.trans hr
      cases hok

/-- Settles O10: what is not read is dropped by the decoder, and the responses are those of `exec_responds`. -/
theorem unreadOperandsAndEmptyResults : Obligations.UnreadOperandsAndEmptyResults := by
  refine ⟨fun s t t' hcmd ha hb => ?_, fun i s u r => exec_no_result, fun t s u r h => ?_⟩
  · rw [step_present, step_present, runTransaction, runTransaction, decode_congr hcmd ha hb, hcmd]
  · rw [step_present] at h
    exact runTransaction_not_ok h

/-- The read-only set of the checks is the one the statements list (R77). -/
theorem readOnly_iff (i : Instr) : readOnly i.op = true ↔ InReadOnlySet i := by
  cases i <;> simp [readOnly, Instr.op, InReadOnlySet]

/-- Settles O47, by the three ways a command can end: refused, faulted, or executed. -/
theorem everyCommandGivesOneResponse : Obligations.EveryCommandGivesOneResponse := by
  intro i s t h
  rw [← readOnly_iff]
  obtain ⟨hset, hread, rfl⟩ | ⟨hclear, -, rfl⟩ | ⟨hmay, rd, u, he, rfl⟩ := exec_next h
  · exact ⟨⟨false, 0⟩, rfl, rfl, rfl, by simp [hset, hread]⟩
  · exact ⟨⟨false, 0⟩, rfl, rfl, rfl, by simp [hclear]⟩
  · obtain ⟨hfault, -, -, hdatapath, hinbox, hresponses⟩ := effect_sameShell he
    refine ⟨⟨true, rd⟩, by rw [respond_responses, hresponses], hinbox, hdatapath, ?_⟩
    obtain ⟨hclear, -⟩ | ⟨hset, hread⟩ := hmay
    · simp [hfault, hclear]
    · simp [hset, hread]

end Sys2Proof.Machine
end

section
/-! ## A step answers (30_encoding.md R78, 60_exceptions.md R214) -/

namespace Sys2Proof.Machine

theorem map_answers {α β ε : Type} {x : Except ε α} {v : α} (h : x = .ok v) (g : α → β) : ∃ w, x.map g = .ok w :=
  ⟨g v, by rw [h]; rfl⟩

/-- The checks of R211 steps 4 and 5 let every command of the read-only set pass (R77). -/
theorem stateCheck_readOnly {i : Instr} (h : readOnly i.op = true) (s : State) : stateCheck i s = .none := by
  cases i with
  | nop | rdlane | rdstat | rdid | rdcnt | rdfault => rfl
  | init | absorb | final | xof | squeeze | digest | discard | wrlane | permute | ror32 | ror64 | andn | intlv | dintlv
  | irol => cases h

/-- The lane that a legal immediate names lies in S (R135, R136, R204). -/
theorem lane_in_S {i : Imm} (h : codeUnless (decide (i.toNat ≤ 24)) .badImm = .none) : 8 * i.toNat + 8 ≤ 200 := by
  have := (Laws.ImmLegal.codeUnless_none _ (by decide)).1 h
  simp only [decide_eq_true_eq] at this
  omega

/-- A command that passes its checks from a well-kept state touches bytes of S only, so its effect is defined. -/
theorem effect_answers {i : Instr} {s : State} (h : BodyOk s) (himm : immCheck i.op i.imm = .none)
    (hphase : phaseCheck i.op s.phase = .none) : ∃ p, effect i s = .ok p := by
  cases i with
  | absorb n a =>
    have hp : s.phase = .absorbing := phase_of_codeUnless (by decide) hphase
    obtain ⟨t, ht, -⟩ := absorbBytes_ready (h.ready (d := .none) (hp ▸ rfl)) (operandBytes n a)
    exact map_answers ht _
  | squeeze n =>
    have hp : s.phase = .squeezing := phase_of_codeUnless (by decide) hphase
    obtain ⟨bs, t, ht, -⟩ := squeezeBytes_ready (h.ready (d := .xof) (hp ▸ rfl)) n.toNat
    exact map_answers ht _
  | final | xof =>
    have hp : s.phase = .absorbing := phase_of_codeUnless (by decide) hphase
    obtain ⟨m, hm, -⟩ := padBlock_ready (h.ready (d := .none) (hp ▸ rfl)) _
    exact map_answers hm _
  | digest k =>
    have hk : k.toNat ≤ 7 := by simpa [Instr.wf] using (Laws.ImmLegal.digest k).2 himm
    exact map_answers (memRead_ok s.mem (by omega)) _
  | wrlane k a => exact map_answers (memWrite_ok s.mem (lane_in_S himm) a) _
  | rdlane k => exact map_answers (memRead_ok s.mem (lane_in_S himm)) _
  | nop | init | discard | permute | ror32 | ror64 | andn | intlv | dintlv | irol | rdstat | rdid | rdcnt | rdfault =>
    exact ⟨_, rfl⟩

/-- A command runs where its checks pass, which those of a read always do, and is refused or faults elsewhere. -/
theorem exec_answers {i : Instr} {s : State} (h : BodyOk s) (himm : immCheck i.op i.imm = .none) :
    ∃ t, exec i s = .next t := by
  cases hr : readOnly i.op with
  | true =>
    have hc := stateCheck_readOnly hr s
    obtain ⟨⟨rd, u⟩, hu⟩ := effect_answers h himm (phaseCheck_of_stateCheck hc)
    exact ⟨_, exec_readOnly hr hc hu⟩
  | false =>
    cases hf : s.fault with
    | true => exact ⟨_, (exec_eq_perform i s).trans (perform_refused hf hr)⟩
    | false =>
      by_cases hc : stateCheck i s = .none
      · obtain ⟨⟨rd, u⟩, hu⟩ := effect_answers h himm (phaseCheck_of_stateCheck hc)
        exact ⟨_, exec_runs hf hc hu⟩
      · exact ⟨_, (exec_eq_perform i s).trans (perform_faults hf hc)⟩

theorem runTransaction_answers {s : State} (h : BodyOk s) (tr : Transaction) : ∃ t, runTransaction tr s = .next t := by
  cases hd : decode tr with
  | error f => exact ⟨_, runTransaction_error hd s⟩
  | ok i => rw [runTransaction_ok hd]; exact exec_answers h (immCheck_of_decode hd)

/-- Settles O45, by the host's next event: the block waits, is reset, or runs a transaction, which answers since S and
the context row of R29 are kept. -/
theorem stepAnswersUnderTheInvariants : Obligations.StepAnswersUnderTheInvariants := by
  intro s h
  match hs : s.inbox with
  | [] => exact ⟨s, by rw [step, nextEvent, hs]⟩
  | .issue tr :: rest =>
    rw [step_issue hs]
    have htaken : BodyOk { s with inbox := rest } := ⟨h.memory, h.context⟩
    exact runTransaction_answers htaken tr
  | .reset :: rest => exact ⟨applyReset { s with inbox := rest }, by rw [step, nextEvent, hs]⟩
  | .cutByReset tr :: rest => exact ⟨applyReset { s with inbox := rest }, by rw [step, nextEvent, hs]⟩

end Sys2Proof.Machine
end

section
/-! ## Sequences of commands that complete (70_reset_and_hazards.md R247) -/

namespace Sys2Proof.Machine

/-- The commands complete one after another from `s`, ending in `t`, and their result words are `rds`. -/
structure Completes (is : List Instr) (s : State) (rds : List Word) (t : State) : Prop where
  runs : performAll is s = .next t
  responses : t.responses = s.responses ++ rds.map (Response.mk true)

theorem Completes.nil (s : State) : Completes [] s [] s := ⟨rfl, by simp⟩

/-- One command: its checks pass and its effect is defined. -/
theorem Completes.single {i : Instr} {s u : State} {rd : Word} (hf : s.fault = false) (hc : stateCheck i s = .none)
    (he : effect i s = .ok (rd, u)) : Completes [i] s [rd] (respond true rd u) := by
  obtain ⟨-, -, -, -, -, hresponses⟩ := effect_sameShell he
  exact ⟨by rw [performAll, exec_runs hf hc he]; rfl, by rw [respond_responses, hresponses]; rfl⟩

theorem performAll_append {is js : List Instr} {s t : State} (h : performAll is s = .next t) :
    performAll (is ++ js) s = performAll js t := by
  induction is generalizing s with
  | nil => cases h; rfl
  | cons i is ih =>
    rw [List.cons_append, performAll]
    rw [performAll] at h
    cases he : exec i s with
    | next u => rw [he] at h; exact ih h
    | fault f => rw [he] at h; cases h
    | refused r => rw [he] at h; cases h

theorem Completes.append {is js : List Instr} {s t u : State} {rds qds : List Word} (h : Completes is s rds t)
    (h' : Completes js t qds u) : Completes (is ++ js) s (rds ++ qds) u :=
  ⟨by rw [performAll_append h.runs, h'.runs], by rw [h'.responses, h.responses]; simp⟩

/-- The responses to the commands of two lists run one after the other. -/
theorem Completes.responses_append {is : List Instr} {s t : State} {rds qds : List Word}
    (h : Completes is s (rds ++ qds) t) :
    t.responses = s.responses ++ rds.map (Response.mk true) ++ qds.map (Response.mk true) := by
  rw [h.responses, List.map_append, List.append_assoc]

/-- Every response of a sequence that completes has ok = 1. -/
theorem ok_of_mem_map {rds : List Word} {r : Response} (h : r ∈ rds.map (Response.mk true)) : r.ok = true := by
  obtain ⟨rd, -, rfl⟩ := List.mem_map.1 h
  rfl

end Sys2Proof.Machine
end

section
/-! ## The first pseudo-commands (30_encoding.md R81) -/

namespace Sys2Proof.Machine

theorem exec_ror64 {s : State} (hf : s.fault = false) (n : Imm) (a : Word) :
    AnswersOnly (.ror64 n a) s (rotr64 a n.toNat) :=
  exec_runs hf rfl rfl

theorem exec_ror32 {s : State} (hf : s.fault = false) (n : Imm) (a : Word) :
    AnswersOnly (.ror32 n a) s ((rotr32 (a.setWidth 32) n.toNat).setWidth 64) :=
  exec_runs hf rfl rfl

/-- A left rotation by `n` is the right rotation by the amount that ROL64 spells. -/
theorem getLsbD_rol64 (a : Word) (n : Nat) {j : Nat} (hj : j < 64) :
    (rotr64 a (BitVec.ofNat 8 ((64 - n % 64) % 64)).toNat).getLsbD ((j + n) % 64) = a.getLsbD j := by
  rw [getLsbD_rotr64 _ _ _ (Nat.mod_lt _ (by omega)), BitVec.toNat_ofNat]
  congr 1
  omega

theorem getLsbD_rol32 (a : Half) (n : Nat) {j : Nat} (hj : j < 32) :
    (rotr32 a (BitVec.ofNat 8 ((32 - n % 32) % 32)).toNat).getLsbD ((j + n) % 32) = a.getLsbD j := by
  rw [getLsbD_rotr32 _ _ _ (Nat.mod_lt _ (by omega)), BitVec.toNat_ofNat]
  congr 1
  omega

/-- What the lanes below `n` hold once LOADSTATE has written them, in IDLE with the latch clear (R135). -/
structure Loaded (v : Nat → Word) (n : Nat) (s : State) : Prop where
  clear : s.fault = false
  phase : s.phase = .idle
  wf : s.mem.wf = true
  lanes : ∀ i < n, ∀ k < 8, s.mem.read (8 * i + k) = byteAt (v i) k

/-- A stored lane reads back byte by byte, and no byte of another lane changes. -/
theorem read_storedLane {m : Memory} (h : m.wf = true) {n i k : Nat} (hn : n < 25) (hk : k < 8) (a : Word) :
    (m.writeBytes (8 * n) ((List.range 8).map (byteOfWord a))).read (8 * i + k) =
      if i = n then byteAt a k else m.read (8 * i + k) := by
  rw [Memory.read_writeBytes _ h (by rw [List.length_map, List.length_range]; omega), List.length_map,
    List.length_range, byteAt_eq_byteOfWord, getD_map_range]
  by_cases hi : i = n
  · rw [if_pos (by omega), if_pos hi, hi, Nat.add_sub_cancel_left, if_pos hk]
  · rw [if_neg (by omega), if_neg hi]

/-- WRLANE of the next lane (R135). -/
theorem Loaded.wrlane {v : Nat → Word} {n : Nat} {s : State} (h : Loaded v n s) (hn : n < 25) :
    ∃ t, Completes [.wrlane (BitVec.ofNat 8 n) (v n)] s [0] t ∧ Loaded v (n + 1) t := by
  have himm : (BitVec.ofNat 8 n).toNat = n := by rw [BitVec.toNat_ofNat]; omega
  have he : effect (.wrlane (BitVec.ofNat 8 n) (v n)) s =
      .ok (0, { s with mem := s.mem.writeBytes (8 * n) ((List.range 8).map (byteOfWord (v n))) }) := by
    rw [effect, himm, memWrite_ok s.mem (by omega)]; rfl
  refine ⟨_, .single h.clear (by rw [stateCheck, h.phase]; rfl) he, h.clear, h.phase, ?_, fun i hi k hk => ?_⟩
  · exact Memory.wf_writeBytes _ h.wf (by rw [List.length_map, List.length_range]; omega)
  · rw [respond_mem, read_storedLane h.wf hn hk]
    by_cases heq : i = n
    · rw [if_pos heq, heq]
    · rw [if_neg heq]; exact h.lanes i (by omega) k hk

theorem completes_wrlanes {s : State} (v : Nat → Word) (hf : s.fault = false) (hp : s.phase = .idle)
    (hm : s.mem.wf = true) (n : Nat) (hn : n ≤ 25) :
    ∃ rds t, Completes ((List.range n).map fun i => .wrlane (BitVec.ofNat 8 i) (v i)) s rds t ∧ Loaded v n t := by
  induction n with
  | zero => exact ⟨[], s, .nil s, hf, hp, hm, by simp⟩
  | succ n ih =>
    obtain ⟨rds, t, ht, hloaded⟩ := ih (by omega)
    obtain ⟨u, hu, hnext⟩ := hloaded.wrlane (by omega)
    refine ⟨rds ++ [0], u, ?_, hnext⟩
    rw [List.range_succ, List.map_append]
    exact ht.append hu

/-- Settles O54: a left rotation is the right rotation by the complement of its amount, and LOADSTATE writes lane after
lane. -/
theorem pseudoRotatesAndLoads : Obligations.PseudoRotatesAndLoads := by
  refine ⟨fun n a s hf => ⟨_, exec_ror64 hf _ a, fun j => getLsbD_rol64 a n⟩,
    fun n a s hf => ⟨_, exec_ror32 hf _ a, fun j hj => ⟨?_, ?_⟩⟩, fun v s hf hp hm => ?_⟩
  · have hlow : (j + n) % 32 < 64 := by omega
    rw [BitVec.getLsbD_setWidth, getLsbD_rol32 _ n hj, BitVec.getLsbD_setWidth]
    simp only [hlow, hj, decide_true, Bool.true_and]
  · rw [BitVec.getLsbD_setWidth, BitVec.getLsbD_of_ge _ _ (by omega), Bool.and_false]
  · obtain ⟨rds, t, ht, hloaded⟩ := completes_wrlanes v hf hp hm 25 (Nat.le_refl 25)
    exact ⟨t, ht.runs, hloaded.phase, hloaded.wf, hloaded.lanes⟩

end Sys2Proof.Machine
end

section
/-! ## The sponge (42_sponge.md R150 to R154, R160, R163) -/

namespace Sys2Proof.Machine

/-! ### The blocks of a padded message -/

theorem xor_zero_byte (b : Byte) : b ^^^ (0 : Byte) = b := BitVec.xor_zero

/-- S when the first `k` bytes of the message are absorbed: the whole blocks permuted, the bytes of the last one XORed
in (R151). -/
def partialBlock (d : Byte) (rate : Nat) (msg : List Byte) (k : Nat) : Memory :=
  Memory.build fun a => (spongeBlocks d rate msg (k / rate)).read a ^^^
    (if a < k % rate then msg.getD (rate * (k / rate) + a) 0 else 0)

theorem wf_spongeBlocks (d : Byte) (rate : Nat) (msg : List Byte) (n : Nat) :
    (spongeBlocks d rate msg n).wf = true := by
  cases n with
  | zero => rfl
  | succ n => exact wf_memoryOf _

/-- An array is the one built from its bytes. -/
theorem eq_build_of_read {m : Memory} {f : Nat → Byte} (h : m.wf = true) (hr : ∀ a < 200, m.read a = f a) :
    m = Memory.build f :=
  Memory.ext_read h (Memory.wf_build f) fun a ha => by rw [hr a ha, Memory.read_build, if_pos ha]

/-- At a block boundary no byte of the next block is in S yet. -/
theorem partialBlock_boundary (d : Byte) {rate : Nat} (msg : List Byte) {k : Nat} (h : k % rate = 0) :
    partialBlock d rate msg k = spongeBlocks d rate msg (k / rate) :=
  (eq_build_of_read (wf_spongeBlocks d rate msg _) fun a _ => by rw [h, if_neg (Nat.not_lt_zero a), xor_zero_byte]).symm

/-- Before the message ends, its padded form has the message's bytes (R160). -/
theorem paddedByte_of_lt (d : Byte) {rate : Nat} (msg : List Byte) {n a : Nat} (ha : a < rate)
    (hn : rate * n + rate ≤ msg.length) : paddedByte d rate msg (rate * n + a) = msg.getD (rate * n + a) 0 := by
  have hlast : rate * n + a + 1 ≠ (msg.length / rate + 1) * rate := by
    have := Nat.div_add_mod msg.length rate
    have := Nat.mod_lt msg.length (Nat.zero_lt_of_lt ha)
    rw [Nat.add_mul, Nat.one_mul, Nat.mul_comm (msg.length / rate)]
    omega
  rw [paddedByte, if_pos (by omega), if_neg (by omega), if_neg hlast, xor_zero_byte, xor_zero_byte]

/-- The bytes of the block that the padding closes: what is left of the message, the domain byte after it, and 0x80 in
the last byte (R153, R154, R160). -/
theorem paddedByte_last (d : Byte) (rate : Nat) (msg : List Byte) (a : Nat) :
    paddedByte d rate msg (rate * (msg.length / rate) + a) =
      (if a < msg.length % rate then msg.getD (rate * (msg.length / rate) + a) 0 else 0) ^^^
        (if a = msg.length % rate then d else 0) ^^^ (if a + 1 = rate then 0x80 else 0) := by
  have hlen := Nat.div_add_mod msg.length rate
  have hend : (msg.length / rate + 1) * rate = rate * (msg.length / rate) + rate := by
    rw [Nat.add_mul, Nat.one_mul, Nat.mul_comm]
  have hin : rate * (msg.length / rate) + a < msg.length ↔ a < msg.length % rate := by omega
  have hat : rate * (msg.length / rate) + a = msg.length ↔ a = msg.length % rate := by omega
  have hlast : rate * (msg.length / rate) + a + 1 = rate * (msg.length / rate) + rate ↔ a + 1 = rate := by omega
  simp only [paddedByte, hend, hin, hat, hlast]

/-- A block of message bytes XORed in whole and permuted is the next state of the sponge. -/
theorem keccakP_full {d : Byte} {rate : Nat} {msg : List Byte} {m : Memory} {n : Nat} (h : m.wf = true)
    (hn : rate * n + rate ≤ msg.length)
    (hr : ∀ a < 200, m.read a = (spongeBlocks d rate msg n).read a ^^^
      (if a < rate then msg.getD (rate * n + a) 0 else 0)) :
    keccakP m = spongeBlocks d rate msg (n + 1) := by
  rw [spongeBlocks]
  refine congrArg keccakP (eq_build_of_read h fun a ha200 => ?_)
  rw [hr a ha200]
  by_cases ha : a < rate
  · rw [if_pos ha, if_pos ha, paddedByte_of_lt d msg ha hn]
  · rw [if_neg ha, if_neg ha]

/-- The last block, padded and permuted, gives the state of the sponge over the padded message. -/
theorem keccakP_padded {d : Byte} {rate : Nat} {msg : List Byte} {m : Memory} (h : m.wf = true) (h0 : 0 < rate)
    (hr : ∀ a < 200, m.read a = (partialBlock d rate msg msg.length).read a ^^^
      (if a = msg.length % rate then d else 0) ^^^ (if a + 1 = rate then 0x80 else 0)) :
    keccakP m = spongeBlocks d rate msg (msg.length / rate + 1) := by
  rw [spongeBlocks]
  refine congrArg keccakP (eq_build_of_read h fun a ha200 => ?_)
  have hlt := Nat.mod_lt msg.length h0
  rw [hr a ha200, partialBlock, Memory.read_build, if_pos ha200]
  by_cases ha : a < rate
  · rw [if_pos ha, paddedByte_last d rate msg a]
    simp only [BitVec.xor_assoc]
  · rw [if_neg ha, if_neg (by omega), if_neg (by omega), if_neg (by omega)]
    simp

/-! ### Moving past byte `k` of a stream -/

/-- The next byte of a stream cut in blocks opens a new block, or is the next of this one. -/
theorem div_mod_succ {rate : Nat} (k : Nat) (h : 0 < rate) :
    k % rate + 1 = rate ∧ (k + 1) / rate = k / rate + 1 ∧ (k + 1) % rate = 0 ∨
    k % rate + 1 < rate ∧ (k + 1) / rate = k / rate ∧ (k + 1) % rate = k % rate + 1 := by
  have hk := Nat.div_add_mod k rate
  rcases Nat.lt_or_ge (k % rate + 1) rate with hlt | hge
  · exact .inr ⟨hlt, (Nat.div_mod_unique h).2 ⟨by omega, hlt⟩⟩
  · have hend : k % rate + 1 = rate := by have := Nat.mod_lt k h; omega
    exact .inl ⟨hend, (Nat.div_mod_unique h).2 ⟨by rw [Nat.mul_succ]; omega, h⟩⟩

/-- POS follows the stream, and S is permuted exactly where a block ends (R151, R155). -/
theorem Ready.advance_at {s : State} {rate k : Nat} (h : Ready s) (hr : s.rate.toNat = rate)
    (hk : s.pos.toNat = k % rate) :
    (advancePos s).pos.toNat = (k + 1) % rate ∧
    (k % rate + 1 = rate ∧ (k + 1) / rate = k / rate + 1 ∧ (k + 1) % rate = 0 ∧
        (advancePos s).mem = keccakP s.mem ∨
      (k + 1) / rate = k / rate ∧ (k + 1) % rate = k % rate + 1 ∧ (advancePos s).mem = s.mem) := by
  obtain rfl := hr
  obtain ⟨hend, hdiv, hmod⟩ | ⟨hlt, hdiv, hmod⟩ := div_mod_succ k (Nat.zero_lt_of_lt h.pos)
  · rw [advancePos_boundary s (h.boundary.2 (hk ▸ hend)), hmod]
    exact ⟨rfl, .inl ⟨hend, hdiv, rfl, permuteBy_eq_keccakP s.datapath s.mem⟩⟩
  · rw [advancePos_below s (mt h.boundary.1 (by omega)), hmod]
    exact ⟨by rw [h.pos_succ, hk], .inr ⟨hdiv, rfl, rfl⟩⟩

/-! ### Absorbing a message -/

/-- A context of INIT `n` in which the first `k` bytes of the message are absorbed (R150 to R152). -/
structure AbsorbedTo (d : Byte) (n : Imm) (msg : List Byte) (k : Nat) (s : State) : Prop where
  clear : s.fault = false
  phase : s.phase = .absorbing
  outlen : s.outlen = n
  rate : s.rate.toNat = 200 - 2 * n.toNat
  ready : Ready s
  pos : s.pos.toNat = k % s.rate.toNat
  mem : s.mem = partialBlock d s.rate.toNat msg k

theorem drop_eq_cons {α : Type} {l bs : List α} {b : α} {k : Nat} (h : l.drop k = b :: bs) (x : α) :
    k < l.length ∧ l.getD k x = b ∧ l.drop (k + 1) = bs := by
  have hk : k < l.length := by
    by_contra hk
    rw [List.drop_eq_nil_of_le (by omega)] at h
    cases h
  rw [List.drop_eq_getElem_cons hk] at h
  obtain ⟨hb, hbs⟩ := List.cons.inj h
  exact ⟨hk, by rw [List.getD_eq_getElem _ _ hk, hb], hbs⟩

/-- S with byte `k` of the message XORed in at POS: one byte more of the block. -/
theorem AbsorbedTo.read_write {d : Byte} {n : Imm} {msg : List Byte} {k : Nat} {s : State}
    (h : AbsorbedTo d n msg k s) {a : Nat} (ha : a < 200) :
    (s.mem.write s.pos.toNat (s.mem.read s.pos.toNat ^^^ msg.getD k 0)).read a =
      (spongeBlocks d s.rate.toNat msg (k / s.rate.toNat)).read a ^^^
        (if a < k % s.rate.toNat + 1 then msg.getD (s.rate.toNat * (k / s.rate.toNat) + a) 0 else 0) := by
  have hk := Nat.div_add_mod k s.rate.toNat
  rw [read_xor h.ready.mem, h.mem, partialBlock, Memory.read_build, if_pos ha, h.pos, BitVec.xor_assoc]
  congr 1
  rcases Nat.lt_trichotomy a (k % s.rate.toNat) with hlt | rfl | hgt
  · rw [if_pos hlt, if_neg (by omega), if_pos (by omega), xor_zero_byte]
  · rw [if_neg (by omega), if_pos rfl, if_pos (by omega), hk, zero_xor_byte]
  · rw [if_neg (by omega), if_neg (by omega), if_neg (by omega), xor_zero_byte]

/-- AbsorbByte of the next byte of the message (R151). -/
theorem AbsorbedTo.absorbByte {d : Byte} {n : Imm} {msg : List Byte} {k : Nat} {s : State}
    (h : AbsorbedTo d n msg k s) (hk : k < msg.length) :
    ∃ t, absorbByte (msg.getD k 0) s = .ok t ∧ AbsorbedTo d n msg (k + 1) t := by
  have hready := h.ready.write (s.mem.read s.pos.toNat ^^^ msg.getD k 0)
  refine ⟨_, absorbByte_ready h.ready _, ?_⟩
  obtain ⟨hpos, hmem⟩ := hready.advance_at (rate := s.rate.toNat) rfl h.pos
  refine ⟨by simp [h.clear], by simp [h.phase], by simp [h.outlen], by simp [h.rate], hready.advance, ?_, ?_⟩
  · rw [hpos, advancePos_rate]
  · obtain ⟨hend, hdiv, hmod, hmem⟩ | ⟨hdiv, hmod, hmem⟩ := hmem
    · have hwhole := Nat.div_add_mod k s.rate.toNat
      rw [hmem, advancePos_rate, partialBlock_boundary d msg hmod, hdiv]
      exact keccakP_full hready.mem (by omega) fun a ha => by rw [h.read_write ha, hend]
    · rw [hmem, advancePos_rate, partialBlock, hdiv, hmod]
      exact eq_build_of_read hready.mem fun a => h.read_write

/-- AbsorbByte for a run of the message's next bytes (R152). -/
theorem AbsorbedTo.absorbBytes {d : Byte} {n : Imm} {msg bs rest : List Byte} {k : Nat} {s : State}
    (h : AbsorbedTo d n msg k s) (hbs : msg.drop k = bs ++ rest) :
    ∃ t, absorbBytes bs s = .ok t ∧ AbsorbedTo d n msg (k + bs.length) t := by
  induction bs generalizing k s with
  | nil => exact ⟨s, rfl, h⟩
  | cons b bs ih =>
    obtain ⟨hk, rfl, hrest⟩ := drop_eq_cons hbs 0
    obtain ⟨u, hu, hnext⟩ := h.absorbByte hk
    obtain ⟨t, ht, hend⟩ := ih hnext hrest
    refine ⟨t, by rw [Machine.absorbBytes, hu]; exact ht, ?_⟩
    rwa [List.length_cons, Nat.add_comm bs.length, ← Nat.add_assoc]

theorem AbsorbedTo.respond {d : Byte} {n : Imm} {msg : List Byte} {k : Nat} {s : State} (h : AbsorbedTo d n msg k s)
    (ok : Bool) (rd : Word) : AbsorbedTo d n msg k (respond ok rd s) :=
  ⟨h.clear, h.phase, h.outlen, h.rate, ⟨h.ready.mem, h.ready.pos, h.ready.rate⟩, h.pos, h.mem⟩

/-- INIT starts with nothing absorbed (R150). -/
theorem absorbedTo_initContext {n : Imm} {s : State} (d : Byte) (msg : List Byte) (hn : n ∈ supportedOutLens)
    (hf : s.fault = false) : AbsorbedTo d n msg 0 (initContext n s) := by
  obtain ⟨hrate, hpos⟩ := rate_of_supported n hn
  have hbody := bodyOk_initContext hn s
  refine ⟨hf, rfl, rfl, hrate, hbody.ready (d := .none) rfl, (Nat.zero_mod _).symm, ?_⟩
  rw [partialBlock_boundary d msg (Nat.zero_mod _), Nat.zero_div]
  rfl

/-- ABSORB commands that carry the next bytes of the message, in any pieces. -/
theorem AbsorbedTo.absorbCommands {d : Byte} {n : Imm} {msg rest : List Byte} {k : Nat} {s : State}
    (h : AbsorbedTo d n msg k s) (ps : List (Imm × Word)) (hps : msg.drop k = messageOf ps ++ rest) :
    ∃ rds t, Completes (absorbCommands ps) s rds t ∧ AbsorbedTo d n msg (k + (messageOf ps).length) t := by
  induction ps generalizing k s with
  | nil => exact ⟨[], s, .nil s, h⟩
  | cons p ps ih =>
    have hcons : messageOf (p :: ps) = operandBytes p.1 p.2 ++ messageOf ps := rfl
    rw [hcons, List.append_assoc] at hps
    obtain ⟨u, hu, hnext⟩ := h.absorbBytes hps
    have hone : Completes [.absorb p.1 p.2] s [0] (Machine.respond true 0 u) :=
      .single h.clear (by rw [stateCheck, h.phase]; rfl) (by rw [effect, hu]; rfl)
    obtain ⟨rds, t, ht, hend⟩ := ih (hnext.respond true 0) (by rw [← List.drop_drop, hps, List.drop_left])
    exact ⟨0 :: rds, t, hone.append ht, by rwa [hcons, List.length_append, ← Nat.add_assoc]⟩

/-- INIT and a message in any pieces absorb the whole of it (R150, R152, R161). -/
theorem completes_init_absorb {n : Imm} {s : State} (d : Byte) (hn : n ∈ supportedOutLens) (hf : s.fault = false)
    (ps : List (Imm × Word)) :
    ∃ rds t, Completes ([.init n] ++ absorbCommands ps) s rds t ∧
      AbsorbedTo d n (messageOf ps) (messageOf ps).length t := by
  have hinit : Completes [.init n] s [0] (respond true 0 (initContext n s)) := .single hf rfl rfl
  have hstart := (absorbedTo_initContext d (messageOf ps) hn hf).respond true 0
  obtain ⟨rds, t, ht, hend⟩ := hstart.absorbCommands ps (rest := []) (by simp)
  exact ⟨[0] ++ rds, t, hinit.append ht, by rwa [Nat.zero_add] at hend⟩

/-! ### Closing the message -/

/-- The padding and the permutation that FINAL and XOF share leave the state of the sponge over the padded message
(R153, R154, R160). -/
theorem AbsorbedTo.padded {d : Byte} {n : Imm} {msg : List Byte} {s : State} (h : AbsorbedTo d n msg msg.length s) :
    ∃ m, padBlock d s = .ok m ∧
      permuteBy s.datapath m = spongeBlocks d s.rate.toNat msg (msg.length / s.rate.toNat + 1) := by
  obtain ⟨m, hm, hwf, hread⟩ := padBlock_ready h.ready d
  refine ⟨m, hm, ?_⟩
  rw [permuteBy_eq_keccakP]
  exact keccakP_padded hwf (Nat.zero_lt_of_lt h.ready.pos) fun a _ => by rw [hread, h.mem, h.pos]

theorem effect_final {s : State} {m : Memory} (h : padBlock 0x06 s = .ok m) :
    effect .final s = .ok (0, endAbsorbing .fixed .final { s with mem := m }) := by
  rw [effect, h]; rfl

theorem effect_xof {s : State} {m : Memory} (h : padBlock 0x1F s = .ok m) :
    effect .xof s = .ok (0, endAbsorbing .xof .squeezing { s with mem := m }) := by
  rw [effect, h]; rfl

/-- FINAL after a whole message (R153). -/
theorem AbsorbedTo.final {n : Imm} {msg : List Byte} {s : State} (h : AbsorbedTo 0x06 n msg msg.length s) :
    ∃ t, Completes [.final] s [0] t ∧ t.fault = false ∧ t.phase = .final ∧ t.outlen = n ∧
      t.mem = spongeBlocks 0x06 (200 - 2 * n.toNat) msg (msg.length / (200 - 2 * n.toNat) + 1) := by
  obtain ⟨m, hm, hsponge⟩ := h.padded
  refine ⟨_, .single h.clear (by rw [stateCheck, h.phase]; rfl) (effect_final hm), h.clear, rfl, h.outlen, ?_⟩
  rw [← h.rate]; exact hsponge

end Sys2Proof.Machine
end

section
/-! ## The pseudo-commands SHA3 and SHAKE (30_encoding.md R81, 42_sponge.md R156, R158, R163) -/

namespace Sys2Proof.Machine

/-! ### A message in pieces of eight bytes -/

/-- The bytes of a word packed from at most eight are those bytes. -/
theorem operandBytes_wordOfBytes {n : Imm} {bs : List Byte} (hlen : bs.length = n.toNat) (h8 : bs.length ≤ 8) :
    operandBytes n (wordOfBytes bs) = bs := by
  refine List.ext_getElem (by rw [length_operandBytes, hlen]) fun j hj hj' => ?_
  simp only [operandBytes, List.getElem_map, List.getElem_range]
  rw [byteOfWord_wordOfBytes bs (by omega), List.getD_eq_getElem _ _ hj']

/-- Pieces of eight, one after another. -/
theorem flatten_pieces {α : Type} (m : List α) (q : Nat) :
    ((List.range q).map fun k => (m.drop (8 * k)).take 8).flatten = m.take (8 * q) := by
  induction q with
  | zero => rfl
  | succ q ih =>
    rw [List.range_succ, List.map_append, List.flatten_append, ih, Nat.mul_succ, List.take_add, List.map_singleton,
      List.flatten_singleton]

/-- ABSORBSTR carries the message (R81). -/
theorem messageOf_chunks (m : List Byte) : messageOf (Pseudo.chunks m) = m := by
  have hpiece (c : List Byte) :
      operandBytes (BitVec.ofNat 8 (c.take 8).length) (wordOfBytes (c.take 8)) = c.take 8 := by
    have h8 : (c.take 8).length ≤ 8 := List.length_take_le 8 c
    exact operandBytes_wordOfBytes (by rw [BitVec.toNat_ofNat]; omega) h8
  rw [messageOf, Pseudo.chunks, List.map_map]
  simp only [Function.comp_def, hpiece]
  rw [flatten_pieces, List.take_of_length_le (by omega)]

/-- What the pseudo-commands begin with: INIT and the message, absorbed whole. -/
theorem completes_init_absorbStr {n : Imm} {s : State} (d : Byte) (hn : n ∈ supportedOutLens) (hf : s.fault = false)
    (msg : List Byte) :
    ∃ rds t, Completes ([.init n] ++ Pseudo.absorbStr msg) s rds t ∧ AbsorbedTo d n msg msg.length t := by
  have h := completes_init_absorb d hn hf (Pseudo.chunks msg)
  rwa [messageOf_chunks] at h

/-! ### Reading the digest -/

/-- The result of DIGEST `k` over the array `m` with OUTLEN = `n` (R158). -/
def digestWord (m : Memory) (n k : Nat) : Word := m.word (8 * k) (min 8 (n - 8 * k))

theorem completes_digest {s : State} (hf : s.fault = false) (hp : s.phase = .final) {k : Imm} (hk : k.toNat ≤ 7)
    (hlt : 8 * k.toNat < s.outlen.toNat) :
    Completes [.digest k] s [digestWord s.mem s.outlen.toNat k.toNat]
      (respond true (digestWord s.mem s.outlen.toNat k.toNat) s) := by
  refine .single hf ?_ ?_
  · rw [stateCheck, hp]
    exact (Laws.ImmLegal.codeUnless_none _ (by decide)).2 (decide_eq_true hlt)
  · rw [effect, memRead_ok s.mem (by omega)]; rfl

/-- A DIGEST for each of the words of the digest. -/
theorem completes_digests {s : State} (hf : s.fault = false) (hp : s.phase = .final) (ks : List Nat)
    (hks : ∀ k ∈ ks, k ≤ 7 ∧ 8 * k < s.outlen.toNat) :
    ∃ t, Completes (ks.map fun k => .digest (BitVec.ofNat 8 k)) s (ks.map (digestWord s.mem s.outlen.toNat)) t := by
  induction ks generalizing s with
  | nil => exact ⟨s, .nil s⟩
  | cons k ks ih =>
    obtain ⟨⟨hk, hlt⟩, hrest⟩ := List.forall_mem_cons.1 hks
    have hnum : (BitVec.ofNat 8 k).toNat = k := by rw [BitVec.toNat_ofNat]; omega
    have hone := completes_digest hf hp (k := BitVec.ofNat 8 k) (by omega) (by omega)
    rw [hnum] at hone
    obtain ⟨t, ht⟩ := ih (s := respond true (digestWord s.mem s.outlen.toNat k) s) hf hp hrest
    exact ⟨t, hone.append ht⟩

/-- Rows of eight, one after another. -/
theorem flatten_rows {α : Type} (f : Nat → Nat → α) (q : Nat) :
    ((List.range q).map fun k => (List.range 8).map (f k)).flatten =
      (List.range (8 * q)).map fun j => f (j / 8) (j % 8) := by
  induction q with
  | zero => rfl
  | succ q ih =>
    rw [List.range_succ (n := q), List.map_append, List.flatten_append, ih, Nat.mul_succ, List.range_add,
      List.map_append, List.map_map, List.map_singleton, List.flatten_singleton]
    congr 1
    refine List.map_congr_left fun j hj => ?_
    have hj8 := List.mem_range.1 hj
    rw [Function.comp_apply, show (8 * q + j) / 8 = q by omega, show (8 * q + j) % 8 = j by omega]

/-- The DIGEST results begin with the digest, bytes 0 to OUTLEN - 1 of S (R158). -/
theorem resultBytes_digests (m : Memory) (n : Nat) :
    (resultBytes (((List.range ((n + 7) / 8)).map (digestWord m n)).map (Response.mk true))).take n =
      (List.range n).map m.read := by
  have hrows : resultBytes (((List.range ((n + 7) / 8)).map (digestWord m n)).map (Response.mk true)) =
      (List.range (8 * ((n + 7) / 8))).map fun j => byteAt (digestWord m n (j / 8)) (j % 8) := by
    rw [← flatten_rows fun k j => byteAt (digestWord m n k) j, resultBytes, List.map_map, List.map_map]
    rfl
  rw [hrows, ← List.map_take, List.take_range, Nat.min_eq_left (by omega)]
  refine List.map_congr_left fun j hj => ?_
  have hjn := List.mem_range.1 hj
  rw [byteAt_eq_byteOfWord, digestWord, byteOfWord_word _ _ _ _ (Nat.mod_lt j (by omega)), if_pos (by omega),
    Nat.div_add_mod]

theorem supported_of_toNat {n : Imm} (h : n.toNat ∈ [16, 28, 32, 48, 64]) : n ∈ supportedOutLens := by
  simpa [supportedOutLens, ← BitVec.toNat_inj] using h

/-- Settles O55: INIT and the pieces absorb the message, FINAL leaves the sponge's state over the padded message, and
the DIGEST commands read it. -/
theorem sha3CommandsGiveTheDigest : Obligations.Sha3CommandsGiveTheDigest := by
  intro n s msg hf hn
  have hsupported : n ∈ supportedOutLens := supported_of_toNat (List.mem_cons_of_mem 16 hn)
  have hle : n.toNat ≤ 64 := by simp at hn; omega
  obtain ⟨rds, t, ht, habsorbed⟩ := completes_init_absorbStr 0x06 hsupported hf msg
  obtain ⟨u, hu, hclear, hphase, houtlen, hmem⟩ := habsorbed.final
  obtain ⟨v, hv⟩ := completes_digests hclear hphase (List.range ((n.toNat + 7) / 8)) fun k hk => by
    have := List.mem_range.1 hk
    rw [houtlen]
    omega
  have hall := (ht.append hu).append hv
  refine ⟨v, _, _, hall.runs, hall.responses_append, ?_, ?_, ?_⟩
  · rw [← List.map_append]; exact fun r => ok_of_mem_map
  · simp
  · rw [houtlen, hmem]; exact resultBytes_digests _ _

/-! ### Reading the stream -/

/-- A context of XOF in which `i` bytes of the output stream that starts in `m` are read (R155, R156). -/
structure SqueezedTo (rate : Nat) (m : Memory) (i : Nat) (s : State) : Prop where
  clear : s.fault = false
  phase : s.phase = .squeezing
  ready : Ready s
  rate_eq : s.rate.toNat = rate
  pos : s.pos.toNat = i % rate
  mem : s.mem = keccakP^[i / rate] m

/-- XOF after a whole message leaves the stream at its start (R154). -/
theorem AbsorbedTo.xof {n : Imm} {msg : List Byte} {s : State} (h : AbsorbedTo 0x1F n msg msg.length s) :
    ∃ t, Completes [.xof] s [0] t ∧ SqueezedTo (200 - 2 * n.toNat)
      (spongeBlocks 0x1F (200 - 2 * n.toNat) msg (msg.length / (200 - 2 * n.toNat) + 1)) 0 t := by
  obtain ⟨m, hm, hsponge⟩ := h.padded
  refine ⟨_, .single h.clear (by rw [stateCheck, h.phase]; rfl) (effect_xof hm), h.clear, rfl, ?_, h.rate,
    (Nat.zero_mod _).symm, ?_⟩
  · exact ⟨wf_permuteBy _ _, Nat.zero_lt_of_lt h.ready.pos, h.ready.rate⟩
  · rw [Nat.zero_div, ← h.rate]; exact hsponge

/-- SqueezeByte gives the next byte of the stream (R155). -/
theorem SqueezedTo.squeezeByte {rate : Nat} {m : Memory} {i : Nat} {s : State} (h : SqueezedTo rate m i s) :
    squeezeByte s = .ok (streamByte rate m i, advancePos s) ∧ SqueezedTo rate m (i + 1) (advancePos s) := by
  refine ⟨by rw [squeezeByte_ready h.ready, streamByte, h.pos, h.mem], ?_⟩
  obtain ⟨hpos, hmem⟩ := h.ready.advance_at h.rate_eq h.pos
  refine ⟨by simp [h.clear], by simp [h.phase], h.ready.advance, by simp [h.rate_eq], hpos, ?_⟩
  obtain ⟨-, hdiv, -, hmem⟩ | ⟨hdiv, -, hmem⟩ := hmem
  · rw [hmem, hdiv, Function.iterate_succ_apply', h.mem]
  · rw [hmem, hdiv, h.mem]

theorem SqueezedTo.squeezeBytes {rate : Nat} {m : Memory} {i : Nat} {s : State} (h : SqueezedTo rate m i s) (n : Nat) :
    ∃ t, squeezeBytes n s = .ok ((List.range n).map fun j => streamByte rate m (i + j), t) ∧
      SqueezedTo rate m (i + n) t := by
  induction n generalizing i s with
  | zero => exact ⟨s, rfl, h⟩
  | succ n ih =>
    obtain ⟨hbyte, hnext⟩ := h.squeezeByte
    obtain ⟨t, ht, hend⟩ := ih hnext
    refine ⟨t, ?_, by rwa [Nat.add_assoc, Nat.add_comm 1] at hend⟩
    rw [Machine.squeezeBytes, hbyte, List.range_succ_eq_map, List.map_cons, List.map_map]
    simp only [ht, Function.comp_def, Nat.add_zero, Nat.succ_eq_add_one, Nat.add_assoc, Nat.add_comm 1]

theorem outputOf_cons (n : Imm) (ns : List Imm) (r : Response) (rs : List Response) :
    outputOf (n :: ns) (r :: rs) = operandBytes n r.rd ++ outputOf ns rs := rfl

theorem SqueezedTo.respond {rate : Nat} {m : Memory} {i : Nat} {s : State} (h : SqueezedTo rate m i s) (ok : Bool)
    (rd : Word) : SqueezedTo rate m i (respond ok rd s) :=
  ⟨h.clear, h.phase, ⟨h.ready.mem, h.ready.pos, h.ready.rate⟩, h.rate_eq, h.pos, h.mem⟩

/-- SQUEEZE commands of at most eight bytes each return the next bytes of the stream in order (R156, R161). -/
theorem SqueezedTo.squeezes {rate : Nat} {m : Memory} {i : Nat} {s : State} (h : SqueezedTo rate m i s)
    (ns : List Imm) (hns : ∀ n ∈ ns, n.toNat ≤ 8) :
    ∃ rds t, Completes (ns.map .squeeze) s rds t ∧
      outputOf ns (rds.map (Response.mk true)) =
        (List.range (ns.map BitVec.toNat).sum).map fun j => streamByte rate m (i + j) := by
  induction ns generalizing i s with
  | nil => exact ⟨[], s, .nil s, rfl⟩
  | cons n ns ih =>
    obtain ⟨hn, hrest⟩ := List.forall_mem_cons.1 hns
    obtain ⟨u, hu, hnext⟩ := h.squeezeBytes n.toNat
    have hone := Completes.single (i := .squeeze n) h.clear (by rw [stateCheck, h.phase]; rfl) (by rw [effect, hu]; rfl)
    obtain ⟨rds, t, ht, hout⟩ := ih (hnext.respond true _) hrest
    refine ⟨_, t, hone.append ht, ?_⟩
    have hbytes : operandBytes n (wordOfBytes ((List.range n.toNat).map fun j => streamByte rate m (i + j))) =
        (List.range n.toNat).map fun j => streamByte rate m (i + j) :=
      operandBytes_wordOfBytes (by simp) (by simpa using hn)
    rw [List.map_append, List.map_singleton, List.singleton_append, outputOf_cons, hbytes, hout, List.map_cons,
      List.sum_cons, List.range_add, List.map_append, List.map_map]
    simp only [Function.comp_def, Nat.add_assoc]

/-- SQUEEZESTR asks for the bytes it spells (R81). -/
theorem sum_squeezeCounts (len : Nat) : ((Pseudo.squeezeCounts len).map BitVec.toNat).sum = len := by
  have hlen := Nat.div_add_mod len 8
  rw [Pseudo.squeezeCounts, List.map_append, List.sum_append, List.map_replicate, List.sum_replicate_nat,
    show (8 : Imm).toNat = 8 from rfl]
  split
  · rw [List.map_nil, List.sum_nil]
    omega
  · rw [List.map_singleton, List.sum_singleton, BitVec.toNat_ofNat]
    omega

theorem squeezeCounts_le {len : Nat} {n : Imm} (h : n ∈ Pseudo.squeezeCounts len) : n.toNat ≤ 8 := by
  rw [Pseudo.squeezeCounts, List.mem_append] at h
  obtain h | h := h
  · rw [(List.mem_replicate.1 h).2]; decide
  · split at h
    · cases h
    · rw [List.mem_singleton.1 h, BitVec.toNat_ofNat]; omega

/-- INIT, the message, XOF and SQUEEZESTR: the output stream of the sponge over the message padded with 0x1F and 0x80,
for every supported output length (R154, R156, R163). -/
theorem completes_shake {n : Imm} {s : State} (hn : n ∈ supportedOutLens) (hf : s.fault = false) (msg : List Byte)
    (len : Nat) :
    ∃ rds qds t, Completes ([.init n] ++ Pseudo.absorbStr msg ++ [.xof] ++ Pseudo.squeezeStr len) s (rds ++ qds) t ∧
      outputOf (Pseudo.squeezeCounts len) (qds.map (Response.mk true)) =
        (List.range len).map (streamByte (200 - 2 * n.toNat)
          (spongeBlocks 0x1F (200 - 2 * n.toNat) msg (msg.length / (200 - 2 * n.toNat) + 1))) := by
  obtain ⟨rds, t, ht, habsorbed⟩ := completes_init_absorbStr 0x1F hn hf msg
  obtain ⟨u, hu, hstart⟩ := habsorbed.xof
  obtain ⟨qds, v, hv, hout⟩ := hstart.squeezes (Pseudo.squeezeCounts len) fun n => squeezeCounts_le
  refine ⟨rds ++ [0], qds, v, (ht.append hu).append hv, ?_⟩
  rw [hout, sum_squeezeCounts]
  simp only [Nat.zero_add]

/-- Settles O56: RATE is 168 for INIT 16 and 136 for INIT 32, and every result has ok = 1. -/
theorem shakeCommandsGiveTheStream : Obligations.ShakeCommandsGiveTheStream := by
  intro s msg len hf
  obtain ⟨rds, qds, t, ht, hout⟩ := completes_shake (n := 16) (by decide) hf msg len
  obtain ⟨rds', qds', t', ht', hout'⟩ := completes_shake (n := 32) (by decide) hf msg len
  refine ⟨⟨t, _, _, ht.runs, ht.responses_append, ?_, hout⟩, t', _, _, ht'.runs, ht'.responses_append, ?_, hout'⟩
  · rw [← List.map_append]; exact fun r => ok_of_mem_map
  · rw [← List.map_append]; exact fun r => ok_of_mem_map

end Sys2Proof.Machine
end

section
/-! ## The static rule of an opcode (30_encoding.md R71, R74, 60_exceptions.md R203, R204) -/

namespace Sys2Proof.Machine

theorem ofCode_of_opField {t : Transaction} {o : Op} (h : opField t = o.code.toNat) : Op.ofCode t.cmd.op = some o := by
  have hop : t.cmd.op = o.code := BitVec.eq_of_toNat_eq (by rw [CmdWord.toNat_op, ← h, opField])
  rw [hop, Op.ofCode_code]

theorem rsvField_eq_zero (t : Transaction) : rsvField t = 0 ↔ t.cmd.rsv = 0 := (CmdWord.rsv_eq_zero t.cmd).symm

theorem toNat_imm_eq_immField (t : Transaction) : t.cmd.imm.toNat = immField t := CmdWord.toNat_imm t.cmd

theorem ofNat_immField (t : Transaction) : BitVec.ofNat 8 (immField t) = t.cmd.imm := by
  rw [← toNat_imm_eq_immField, BitVec.ofNat_toNat, BitVec.setWidth_eq]

/-- An opcode whose immediate check passes the legal immediates and gives `code` for every other one has that rule. -/
theorem opcodeRule_of_immCheck (o : Op) {legal : Nat → Prop} {code : FaultCode} (hcode : code ≠ .none)
    (hlegal : ∀ imm : Imm, legal imm.toNat → immCheck o imm = .none)
    (hillegal : ∀ imm : Imm, ¬ legal imm.toNat → immCheck o imm = code) :
    OpcodeRule o.code.toNat legal code o.instr := by
  intro t hop
  have ho := ofCode_of_opField hop
  rw [Ne, rsvField_eq_zero, ofNat_immField, ← toNat_imm_eq_immField]
  refine ⟨decode_rsv ho, fun hrsv himm => ?_, fun hrsv himm => decode_legal ho hrsv (hlegal _ himm)⟩
  have hcheck := hillegal _ himm
  rw [decode_imm ho hrsv (by rwa [hcheck]), hcheck]

/-- The rule of an opcode that admits every immediate. -/
theorem opcodeRule_any_imm (o : Op) (h : ∀ imm, immCheck o imm = .none) :
    OpcodeRule o.code.toNat (fun _ => True) .badImm o.instr :=
  opcodeRule_of_immCheck o (by decide) (fun imm _ => h imm) (fun _ hfalse => absurd trivial hfalse)

/-- The rule of an opcode that takes no immediate. -/
theorem opcodeRule_zero_imm (o : Op) (h : ∀ imm, immCheck o imm = codeUnless (imm == 0) .badImm) :
    OpcodeRule o.code.toNat (· = 0) .badImm o.instr := by
  refine opcodeRule_of_immCheck o (by decide) (fun imm hzero => ?_) (fun imm hne => ?_)
  · obtain rfl : imm = 0 := BitVec.eq_of_toNat_eq hzero
    exact h 0
  · have himm : (imm == 0) = false := beq_eq_false_iff_ne.2 fun hzero => hne (by rw [hzero]; rfl)
    rw [h, himm]; rfl

end Sys2Proof.Machine
end

section
/-! ## The bit primitives (40_primitives.md R100 to R105) -/

namespace Sys2Proof.Machine

/-! ### Their responses -/

theorem exec_andn {s : State} (hf : s.fault = false) (a b : Word) : AnswersOnly (.andn a b) s (andNot a b) :=
  exec_runs hf rfl rfl

theorem exec_intlv {s : State} (hf : s.fault = false) (a : Word) : AnswersOnly (.intlv a) s (interleave a) :=
  exec_runs hf rfl rfl

theorem exec_dintlv {s : State} (hf : s.fault = false) (a : Word) : AnswersOnly (.dintlv a) s (uninterleave a) :=
  exec_runs hf rfl rfl

theorem exec_irol {s : State} (hf : s.fault = false) (n : Imm) (a : Word) :
    AnswersOnly (.irol n a) s (packPair (rotatePair (pairEven a) (pairOdd a) n.toNat).1
      (rotatePair (pairEven a) (pairOdd a) n.toNat).2) :=
  exec_runs hf rfl rfl

/-! ### The bits of a word and of its interleaved pair -/

theorem getLsbD_andNot {w : Nat} (a b : BitVec w) {j : Nat} (hj : j < w) :
    (andNot a b).getLsbD j = (!a.getLsbD j && b.getLsbD j) := by
  simp only [andNot, BitVec.getLsbD_and, BitVec.getLsbD_not, hj, decide_true, Bool.true_and]

theorem getLsbD_packPair_low (e o : Half) {j : Nat} (hj : j < 32) : (packPair e o).getLsbD j = e.getLsbD j := by
  rw [getLsbD_packPair, if_pos hj]

theorem getLsbD_packPair_high (e o : Half) (j : Nat) : (packPair e o).getLsbD (32 + j) = o.getLsbD j := by
  rw [getLsbD_packPair, if_neg (by omega), Nat.add_sub_cancel_left]

theorem getLsbD_pairEven_lt (p : Word) {j : Nat} (hj : j < 32) : (pairEven p).getLsbD j = p.getLsbD j := by
  simp only [getLsbD_pairEven, hj, decide_true, Bool.true_and]

theorem getLsbD_pairOdd_lt (p : Word) {j : Nat} (hj : j < 32) : (pairOdd p).getLsbD j = p.getLsbD (32 + j) := by
  simp only [getLsbD_pairOdd, hj, decide_true, Bool.true_and]

/-- The low half of an interleaved word is its even bits, the high half its odd ones (R103). -/
theorem getLsbD_interleave (x : Word) {j : Nat} (hj : j < 32) :
    (interleave x).getLsbD j = x.getLsbD (2 * j) ∧ (interleave x).getLsbD (32 + j) = x.getLsbD (2 * j + 1) := by
  rw [interleave, getLsbD_packPair_low _ _ hj, getLsbD_packPair_high, getLsbD_evenHalf, getLsbD_oddHalf]
  simp only [hj, decide_true, Bool.true_and, and_self]

/-- DINTLV puts the low half at the even places, the high half at the odd ones (R104): it is read off from the word that
interleaving gives back. -/
theorem getLsbD_uninterleave (p : Word) {j : Nat} (hj : j < 32) :
    (uninterleave p).getLsbD (2 * j) = p.getLsbD j ∧ (uninterleave p).getLsbD (2 * j + 1) = p.getLsbD (32 + j) := by
  obtain ⟨heven, hodd⟩ := getLsbD_interleave (uninterleave p) hj
  rw [interleave_uninterleave] at heven hodd
  exact ⟨heven.symm, hodd.symm⟩

/-! ### Left rotations, said of the bit that moves -/

theorem getLsbD_rotl64_add (x : Word) (n : Nat) {j : Nat} (hj : j < 64) :
    (rotl64 x n).getLsbD ((j + n) % 64) = x.getLsbD j := by
  rw [getLsbD_rotl64 _ _ _ (Nat.mod_lt _ (by omega))]
  congr 1
  omega

theorem getLsbD_rotl32_add (x : Half) (n : Nat) {j : Nat} (hj : j < 32) :
    (rotl32 x n).getLsbD ((j + n) % 32) = x.getLsbD j := by
  rw [getLsbD_rotl32 _ _ _ (Nat.mod_lt _ (by omega))]
  congr 1
  omega

/-- The pair of two rotated halves: bit j of each half is found the half's own amount further on. -/
theorem getLsbD_packPair_rotl32 (e o : Half) (k l : Nat) {j : Nat} (hj : j < 32) :
    (packPair (rotl32 e k) (rotl32 o l)).getLsbD ((j + k) % 32) = e.getLsbD j ∧
      (packPair (rotl32 e k) (rotl32 o l)).getLsbD (32 + (j + l) % 32) = o.getLsbD j := by
  rw [getLsbD_packPair_low _ _ (Nat.mod_lt _ (by omega)), getLsbD_packPair_high]
  exact ⟨getLsbD_rotl32_add e k hj, getLsbD_rotl32_add o l hj⟩

/-! ### The interleaved rotate (R105) -/

theorem rotatePair_of_even (e o : Half) {n : Nat} (h : n % 2 = 0) :
    rotatePair e o n = (rotl32 e (n % 64 / 2), rotl32 o (n % 64 / 2)) :=
  if_pos (by omega)

theorem rotatePair_of_odd (e o : Half) {n : Nat} (h : n % 2 ≠ 0) :
    rotatePair e o n = (rotl32 o (n % 64 / 2 + 1), rotl32 e (n % 64 / 2)) :=
  if_neg (by omega)

/-- IROL of a pair is INTLV of the pair's lane rotated left. -/
theorem packPair_rotatePair (p : Word) (n : Nat) :
    packPair (rotatePair (pairEven p) (pairOdd p) n).1 (rotatePair (pairEven p) (pairOdd p) n).2 =
      interleave (rotl64 (uninterleave p) n) := by
  have heven : pairEven p = evenHalf (uninterleave p) := (evenHalf_mergeHalves _ _).symm
  have hodd : pairOdd p = oddHalf (uninterleave p) := (oddHalf_mergeHalves _ _).symm
  rw [heven, hodd, rotatePair_halves, interleave]

/-! ### The commands -/

/-- Settles O21: ROR32 admits every immediate, and bit j of the low half is the bit n places above it, modulo 32. -/
theorem ror32RotatesTheLowHalf : Obligations.Ror32RotatesTheLowHalf := by
  refine ⟨opcodeRule_any_imm .ror32 fun _ => rfl, fun n a s hf => ⟨_, exec_ror32 hf n a, fun j hj => ?_⟩⟩
  rw [BitVec.getLsbD_setWidth]
  by_cases hlow : j < 32
  · have hsource : (j + n.toNat) % 32 < 32 := Nat.mod_lt _ (by omega)
    rw [if_pos hlow, getLsbD_rotr32 _ _ _ hlow, BitVec.getLsbD_setWidth]
    simp only [hj, hsource, decide_true, Bool.true_and]
  · rw [if_neg hlow, BitVec.getLsbD_of_ge _ _ (by omega), Bool.and_false]

/-- Settles O22: ROR64 admits every immediate, and bit j is the bit n places above it, modulo 64. -/
theorem ror64RotatesTheWord : Obligations.Ror64RotatesTheWord :=
  ⟨opcodeRule_any_imm .ror64 fun _ => rfl, fun n a _ hf => ⟨_, exec_ror64 hf n a, getLsbD_rotr64 a n.toNat⟩⟩

/-- Settles O23: ANDN takes no immediate, and complements its first operand. -/
theorem andnComplementsTheFirstOperand : Obligations.AndnComplementsTheFirstOperand :=
  ⟨opcodeRule_zero_imm .andn fun _ => rfl, fun a b _ hf => ⟨_, exec_andn hf a b, fun _ => getLsbD_andNot a b⟩⟩

/-- Settles O24: INTLV takes no immediate, and its result is the even bits below the odd ones. -/
theorem intlvSplitsEvenAndOddBits : Obligations.IntlvSplitsEvenAndOddBits :=
  ⟨opcodeRule_zero_imm .intlv fun _ => rfl, fun a _ hf => ⟨_, exec_intlv hf a, fun _ => getLsbD_interleave a⟩⟩

/-- Settles O25: DINTLV takes no immediate, and each of the two functions undoes the other. -/
theorem dintlvInvertsIntlv : Obligations.DintlvInvertsIntlv := by
  refine ⟨opcodeRule_zero_imm .dintlv fun _ => rfl,
    fun a s hf => ⟨_, exec_dintlv hf a, fun _ => getLsbD_uninterleave a, ?_⟩,
    fun a s hf => ⟨_, exec_intlv hf a, ?_⟩⟩
  · simpa only [interleave_uninterleave] using exec_intlv hf (uninterleave a)
  · simpa only [uninterleave_interleave] using exec_dintlv hf (interleave a)

/-- Settles O26, by the parity of the amount for the two halves; the lane that the operand is interleaved from, and that
lane rotated, are the words of the law. -/
theorem irolRotatesTheInterleavedLane : Obligations.IrolRotatesTheInterleavedLane := by
  refine ⟨opcodeRule_any_imm .irol fun _ => rfl, fun n a s hf => ⟨_, exec_irol hf n a, fun j hj => ?_,
    uninterleave a, rotl64 (uninterleave a) n.toNat, ?_, ?_, fun j => getLsbD_rotl64_add _ _⟩⟩
  · rw [← getLsbD_pairEven_lt a hj, ← getLsbD_pairOdd_lt a hj]
    by_cases heven : n.toNat % 2 = 0
    · rw [if_pos heven, rotatePair_of_even _ _ heven]
      exact getLsbD_packPair_rotl32 _ _ _ _ hj
    · rw [if_neg heven, rotatePair_of_odd _ _ heven]
      exact getLsbD_packPair_rotl32 _ _ _ _ hj
  · simpa only [interleave_uninterleave] using exec_intlv hf (uninterleave a)
  · rw [packPair_rotatePair]
    exact exec_intlv hf _

end Sys2Proof.Machine
end

section
/-! ## What a failed check leaves, and the opcodes with a bounded immediate (60_exceptions.md R204, R209, R210) -/

namespace Sys2Proof.Machine

/-- With the latch clear, a failed check is the fault of its code (R210). -/
theorem exec_faultsWith {i : Instr} {s : State} {f : FaultCode} (hf : s.fault = false) (hc : stateCheck i s = f)
    (hne : f ≠ .none) : FaultsWith i s f := by
  rw [FaultsWith, exec_eq_perform, perform_faults hf (hc ▸ hne), hc]
  rfl

/-- A failed phase check is the one recorded: the dynamic check comes after it (R211). -/
theorem stateCheck_of_phaseCheck {i : Instr} {s : State} {f : FaultCode} (h : phaseCheck i.op s.phase = f)
    (hne : f ≠ .none) : stateCheck i s = f := by
  unfold stateCheck
  split
  · rename_i hnone; exact absurd (h.symm.trans hnone) hne
  · exact h

theorem codeUnless_of_phase_ne {p q : Phase} (h : p ≠ q) (f : FaultCode) : codeUnless (p == q) f = f := by
  rw [beq_eq_false_iff_ne.2 h]; rfl

/-- A command that needs phase `p` faults with its code in every other phase. -/
theorem exec_wrongPhase {i : Instr} {s : State} {p : Phase} {f : FaultCode} (hf : s.fault = false) (hp : s.phase ≠ p)
    (hcheck : phaseCheck i.op s.phase = codeUnless (s.phase == p) f) (hne : f ≠ .none) : FaultsWith i s f :=
  exec_faultsWith hf (stateCheck_of_phaseCheck (hcheck.trans (codeUnless_of_phase_ne hp f)) hne) hne

/-- The rule of an opcode that admits the immediates up to a bound. -/
theorem opcodeRule_imm_le (o : Op) (bound : Nat)
    (h : ∀ imm, immCheck o imm = codeUnless (decide (imm.toNat ≤ bound)) .badImm) :
    OpcodeRule o.code.toNat (· ≤ bound) .badImm o.instr := by
  refine opcodeRule_of_immCheck o (by decide) (fun imm hle => ?_) (fun imm hgt => ?_)
  · rw [h, decide_eq_true hle]; rfl
  · rw [h, decide_eq_false hgt]; rfl

end Sys2Proof.Machine
end

section
/-! ## The raw-state commands (41_permutation.md R135 to R137) -/

namespace Sys2Proof.Machine

/-- Settles O27: RDLANE executes whatever the latch and the phase say, and its result is the word of the lane's bytes. -/
theorem rdlaneReturnsTheLane : Obligations.RdlaneReturnsTheLane :=
  ⟨opcodeRule_imm_le .rdlane 24 fun _ => rfl,
    fun _ s hi => ⟨_, exec_rdlane (Nat.lt_succ_of_le hi) s, fun _ => s.mem.byteAt_word _⟩⟩

/-- WRLANE in IDLE writes the eight bytes of its operand from byte 8i on (R135). -/
theorem exec_wrlane {i : Imm} {s : State} (a : Word) (hf : s.fault = false) (hp : s.phase = .idle)
    (hi : i.toNat ≤ 24) :
    exec (.wrlane i a) s = .next (respond true 0
      { s with mem := s.mem.writeBytes (8 * i.toNat) ((List.range 8).map (byteOfWord a)) }) := by
  refine exec_runs hf (by rw [stateCheck, hp]; rfl) ?_
  rw [effect, memWrite_ok s.mem (by omega)]; rfl

/-- The eight bytes of a word stored from byte j on: each at its address, and no other byte changes. -/
theorem read_storedWord {m : Memory} (h : m.wf = true) {j : Nat} (hj : j + 8 ≤ 200) (w : Word) (a : Nat) :
    (m.writeBytes j ((List.range 8).map (byteOfWord w))).read a =
      if j ≤ a ∧ a < j + 8 then byteAt w (a - j) else m.read a := by
  have hlen : ((List.range 8).map (byteOfWord w)).length = 8 := by rw [List.length_map, List.length_range]
  rw [Memory.read_writeBytes _ h (by rwa [hlen]), hlen, getD_map_range, byteAt_eq_byteOfWord]
  by_cases ha : j ≤ a ∧ a < j + 8
  · rw [if_pos ha, if_pos ha, if_pos (by omega)]
  · rw [if_neg ha, if_neg ha]

/-- Settles O28: WRLANE runs in IDLE and is a store of eight bytes that lie in S; its phase check fails elsewhere. -/
theorem wrlaneStoresTheLane : Obligations.WrlaneStoresTheLane :=
  ⟨opcodeRule_imm_le .wrlane 24 fun _ => rfl,
    fun _ a _ hf hp hm hi => ⟨_, exec_wrlane a hf hp hi, read_storedWord hm (by omega) a⟩,
    fun _ _ _ hf hp => exec_wrongPhase hf hp rfl (by decide)⟩

/-- PERMUTE in IDLE applies the reference permutation, on either datapath, and counts it (R132, R137). -/
theorem exec_permute {s : State} (hf : s.fault = false) (hp : s.phase = .idle) :
    exec .permute s = .next (respond true 0 { s with mem := keccakP s.mem, permCount := s.permCount + 1 }) := by
  refine exec_runs hf (by rw [stateCheck, hp]; rfl) ?_
  rw [effect, applyPermutation, permuteBy_eq_keccakP]

/-- Settles O29: PERMUTE takes no immediate, runs in IDLE, and its phase check fails elsewhere. -/
theorem permuteAppliesTheReference : Obligations.PermuteAppliesTheReference :=
  ⟨opcodeRule_zero_imm .permute fun _ => rfl, fun _ => exec_permute,
    fun _ hf hp => exec_wrongPhase hf hp rfl (by decide)⟩

end Sys2Proof.Machine
end

section
/-! ## The permutation on lanes and on S (41_permutation.md R120 to R134) -/

namespace Sys2Proof.Machine

/-- Settles O41: each W32I round is the 64-bit round seen on the halves, so the 24 rounds between the two conversions are
the reference permutation. -/
theorem bothDatapathsComputeP : Obligations.BothDatapathsComputeP :=
  ⟨permuteW32I_eq_permuteW64, permuteBy_eq_keccakP⟩

/-- Settles O38: a lane of S is the word of its eight bytes, and P(S) is stored from the lanes the 24 rounds give. -/
theorem permutationRunsTheRoundsOnTheLanes : Obligations.PermutationRunsTheRoundsOnTheLanes := by
  refine ⟨fun m i hi k hk => ?_, fun m i hi => ?_⟩
  · rw [get_lanesOf m hi, m.byteAt_word _ hk]
  · rw [keccakP, get_lanesOf_memoryOf _ hi]; rfl

/-! ### The five steps in the coordinates (x, y) -/

/-- The two spellings of the table of offsets, by flat index and by column and row, agree (R128). -/
theorem rotAt_coordinates : ∀ x < 5, ∀ y < 5, rotAt (x + 5 * y) = rotOffset x y := by decide

section
variable {x y : Nat} (hx : x < 5) (hy : y < 5)
include hx hy

theorem at_theta (A : Lanes) : (theta A).at x y =
    A.at x y ^^^ (columnParity A ((x + 4) % 5) ^^^ rotl64 (columnParity A ((x + 1) % 5)) 1) := by
  have hcolumn : (x + 5 * y) % 5 = x := by omega
  rw [Lanes.at, get_theta A (by omega), hcolumn, Lanes.at]

theorem at_rho (A : Lanes) : (rho A).at x y = rotl64 (A.at x y) (rotOffset x y) := by
  rw [Lanes.at, get_rho A (by omega), rotAt_coordinates x hx y hy, Lanes.at]

/-- The lane that arrives at (y, 2x + 3y) left (x, y). -/
theorem piSource_coordinates : piSource (y + 5 * ((2 * x + 3 * y) % 5)) = x + 5 * y := by
  have hcolumn : (y + 5 * ((2 * x + 3 * y) % 5)) % 5 = y := by omega
  have hrow : (y + 5 * ((2 * x + 3 * y) % 5)) / 5 = (2 * x + 3 * y) % 5 := by omega
  rw [piSource, hcolumn, hrow]
  omega

theorem at_piStep (A : Lanes) : (piStep A).at y ((2 * x + 3 * y) % 5) = A.at x y := by
  rw [Lanes.at, get_piStep A (by omega), piSource_coordinates hx hy, Lanes.at]

omit hy in
theorem rowNeighbour_coordinates (k : Nat) : rowNeighbour (x + 5 * y) k = (x + k) % 5 + 5 * y := by
  unfold rowNeighbour; omega

theorem at_chi (A : Lanes) :
    (chi A).at x y = A.at x y ^^^ andNot (A.at ((x + 1) % 5) y) (A.at ((x + 2) % 5) y) := by
  rw [Lanes.at, get_chi A (by omega), rowNeighbour_coordinates hx, rowNeighbour_coordinates hx]
  rfl

theorem at_iota (ir : Nat) (A : Lanes) :
    (iota ir A).at x y = if x = 0 ∧ y = 0 then A.at 0 0 ^^^ rcAt ir else A.at x y := by
  have horigin : x + 5 * y = 0 ↔ x = 0 ∧ y = 0 := by omega
  rw [Lanes.at, get_iota ir A (by omega)]
  simp only [horigin]
  rfl

end

/-- Settles O39, a step at a time. -/
theorem roundStepsFollowTheirRules : Obligations.RoundStepsFollowTheirRules :=
  fun A _ _ hx hy =>
    ⟨at_theta hx hy A, at_rho hx hy A, at_piStep hx hy A, at_chi hx hy A, fun ir _ => at_iota hx hy ir A⟩

/-! ### The constants -/

/-- The 24 iota constants, each the word of its bits (R133). -/
theorem rcAt_eq_wordOfBits : ∀ ir < 24, rcAt ir =
    wordOfBits 64 fun b => (List.range 7).any fun j => b == 2 ^ j - 1 && lfsrBit (j + 7 * ir) := by
  decide

/-- The 24 offsets along the walk (R134). -/
theorem rotAt_rotWalk :
    ∀ t < 24, rotAt ((rotWalk t).1 + 5 * (rotWalk t).2) = (t + 1) * (t + 2) / 2 % 64 := by
  decide

/-- Settles O40: both are finite tables, checked entry by entry against the rule that generates them. -/
theorem constantsAreGenerated : Obligations.ConstantsAreGenerated := by
  refine ⟨fun ir hir b hb => ?_, rfl, rotAt_rotWalk⟩
  rw [rcAt_eq_wordOfBits ir hir, getLsbD_wordOfBits, decide_eq_true hb, Bool.true_and]

end Sys2Proof.Machine
end

section
/-! ## A byte stream given in commands (42_sponge.md R152, R156, R161) -/

namespace Sys2Proof.Machine

/-! ### No byte of a stream depends on the responses given -/

theorem advancePos_respond (ok : Bool) (rd : Word) (s : State) :
    advancePos (respond ok rd s) = respond ok rd (advancePos s) := by
  rw [advancePos, advancePos, apply_ite (respond ok rd)]; rfl

theorem absorbByte_respond (ok : Bool) (rd : Word) (b : Byte) (s : State) :
    absorbByte b (respond ok rd s) = (absorbByte b s).map (respond ok rd) := by
  rw [absorbByte, absorbByte, respond_mem, respond_pos]
  cases xorByte s.mem s.pos.toNat b with
  | ok m => exact congrArg Except.ok (advancePos_respond ok rd { s with mem := m })
  | error f => rfl

theorem absorbBytes_respond (ok : Bool) (rd : Word) (bs : List Byte) (s : State) :
    absorbBytes bs (respond ok rd s) = (absorbBytes bs s).map (respond ok rd) := by
  induction bs generalizing s with
  | nil => rfl
  | cons b bs ih =>
    rw [absorbBytes, absorbBytes, absorbByte_respond]
    cases absorbByte b s with
    | ok t => exact ih t
    | error f => rfl

theorem squeezeByte_respond (ok : Bool) (rd : Word) (s : State) :
    squeezeByte (respond ok rd s) = (squeezeByte s).map (Prod.map id (respond ok rd)) := by
  rw [squeezeByte, squeezeByte, respond_mem, respond_pos, advancePos_respond]
  cases readByte s.mem s.pos.toNat with
  | ok b => rfl
  | error f => rfl

theorem squeezeBytes_respond (ok : Bool) (rd : Word) (n : Nat) (s : State) :
    squeezeBytes n (respond ok rd s) = (squeezeBytes n s).map (Prod.map id (respond ok rd)) := by
  induction n generalizing s with
  | zero => rfl
  | succ n ih =>
    rw [squeezeBytes, squeezeBytes, squeezeByte_respond]
    cases squeezeByte s with
    | error f => rfl
    | ok p =>
      obtain ⟨b, t⟩ := p
      simp only [Except.map, Prod.map, ih t]
      cases squeezeBytes n t with
      | ok q => rfl
      | error f => rfl

theorem Ready.respond {s : State} (h : Ready s) (ok : Bool) (rd : Word) : Ready (respond ok rd s) :=
  ⟨h.mem, h.pos, h.rate⟩

/-! ### The commands of a stream, one after another -/

/-- The state with an accepted response for each of the result words `rds`, and nothing else changed. -/
def respondAll (rds : List Word) (s : State) : State :=
  { s with responses := s.responses ++ rds.map (Response.mk true) }

theorem respondAll_nil (s : State) : respondAll [] s = s := by simp [respondAll]

theorem respondAll_cons (rd : Word) (rds : List Word) (s : State) :
    respondAll (rd :: rds) s = respondAll rds (respond true rd s) := by simp [respondAll, respond]

/-- ABSORB commands have the effect of one run of AbsorbByte over the bytes they carry. -/
theorem completes_absorbCommands (ps : List (Imm × Word)) {s t : State} (hf : s.fault = false)
    (hp : s.phase = .absorbing) (ht : absorbBytes (messageOf ps) s = .ok t) :
    ∃ rds, Completes (absorbCommands ps) s rds (respondAll rds t) := by
  induction ps generalizing s t with
  | nil => cases ht; exact ⟨[], by rw [respondAll_nil]; exact .nil s⟩
  | cons p ps ih =>
    have hcons : messageOf (p :: ps) = operandBytes p.1 p.2 ++ messageOf ps := rfl
    rw [hcons, absorbBytes_append] at ht
    cases hu : absorbBytes (operandBytes p.1 p.2) s with
    | error f => rw [hu] at ht; cases ht
    | ok u =>
      rw [hu] at ht
      obtain ⟨⟨hclear, -⟩, hphase, -⟩ := sameContext_absorbBytes hu
      have hone : Completes [.absorb p.1 p.2] s [0] (respond true 0 u) :=
        .single hf (by rw [stateCheck, hp]; rfl) (by rw [effect, hu]; rfl)
      have hrest : absorbBytes (messageOf ps) (respond true 0 u) = .ok (respond true 0 t) := by
        rw [absorbBytes_respond]; exact congrArg (Except.map (respond true 0)) ht
      obtain ⟨rds, hrds⟩ := ih (s := respond true 0 u) (hclear.trans hf) (hphase.trans hp) hrest
      exact ⟨0 :: rds, by rw [respondAll_cons]; exact hone.append hrds⟩

/-- SQUEEZE commands have the effect of one run of SqueezeByte, and return the bytes of that run in order. -/
theorem completes_squeezeCommands (ns : List Imm) (hns : ∀ n ∈ ns, n.toNat ≤ 8) {s t : State} {bs : List Byte}
    (hf : s.fault = false) (hp : s.phase = .squeezing) (h : Ready s)
    (ht : squeezeBytes (ns.map BitVec.toNat).sum s = .ok (bs, t)) :
    ∃ rds, Completes (ns.map .squeeze) s rds (respondAll rds t) ∧ rds.length = ns.length ∧
      outputOf ns (rds.map (Response.mk true)) = bs := by
  induction ns generalizing s t bs with
  | nil => cases ht; exact ⟨[], by rw [respondAll_nil]; exact .nil s, rfl, rfl⟩
  | cons n ns ih =>
    obtain ⟨hn, hrest⟩ := List.forall_mem_cons.1 hns
    obtain ⟨xs, u, hu, hlen, hready⟩ := squeezeBytes_ready h n.toNat
    obtain ⟨ys, v, hv, -⟩ := squeezeBytes_ready hready (ns.map BitVec.toNat).sum
    cases (squeezeBytes_add hu hv).symm.trans ht
    obtain ⟨⟨hclear, -⟩, hphase, -⟩ := sameContext_squeezeBytes hu
    have hone : Completes [.squeeze n] s [wordOfBytes xs] (respond true (wordOfBytes xs) u) :=
      .single hf (by rw [stateCheck, hp]; rfl) (by rw [effect, hu]; rfl)
    have hrun := (squeezeBytes_respond true (wordOfBytes xs) _ u).trans (congrArg _ hv)
    obtain ⟨rds, hrds, hcount, hout⟩ :=
      ih hrest (s := respond true (wordOfBytes xs) u) (hclear.trans hf) (hphase.trans hp)
        (hready.respond true _) hrun
    refine ⟨wordOfBytes xs :: rds, by rw [respondAll_cons]; exact hone.append hrds, by simp [hcount], ?_⟩
    rw [List.map_cons, outputOf_cons, operandBytes_wordOfBytes hlen (hlen ▸ hn), hout]
    rfl

/-- Settles O49: both splits have the effect of one run of AbsorbByte over the message. -/
theorem absorbingIsStreaming : Obligations.AbsorbingIsStreaming := by
  intro s ps qs hinv hf hp _ _ hmsg
  have hready : Ready s := BodyOk.ready ⟨hinv.memory, hinv.context⟩ (d := .none) (hp ▸ rfl)
  obtain ⟨t, ht, -⟩ := absorbBytes_ready hready (messageOf ps)
  obtain ⟨rds, hps⟩ := completes_absorbCommands ps hf hp ht
  obtain ⟨qds, hqs⟩ := completes_absorbCommands qs hf hp (hmsg ▸ ht)
  exact ⟨_, _, hps.runs, hqs.runs, rfl, rfl, rfl⟩

/-- Settles O50: both splits have the effect of one run of SqueezeByte, whose bytes they return. -/
theorem squeezingIsStreaming : Obligations.SqueezingIsStreaming := by
  intro s ns ms hinv hf hp hns hms hsum
  have hready : Ready s := BodyOk.ready ⟨hinv.memory, hinv.context⟩ (d := .xof) (hp ▸ rfl)
  obtain ⟨bs, t, ht, -⟩ := squeezeBytes_ready hready (ns.map BitVec.toNat).sum
  obtain ⟨rds, hrun, hcount, hout⟩ := completes_squeezeCommands ns hns hf hp hready ht
  obtain ⟨qds, hrun', hcount', hout'⟩ := completes_squeezeCommands ms hms hf hp hready (hsum ▸ ht)
  exact ⟨_, _, _, _, hrun.runs, hrun'.runs, hrun.responses, hrun'.responses, by rwa [List.length_map],
    by rwa [List.length_map], hout.trans hout'.symm, rfl, rfl, rfl⟩

/-- Settles O52: INIT and the pieces absorb the message, and FINAL and XOF each close it with their padding. -/
theorem commandsComputeTheSponge : Obligations.CommandsComputeTheSponge := by
  intro n s ps hf hn _
  have hsupported := supported_of_toNat hn
  obtain ⟨rds, t, ht, hfixed⟩ := completes_init_absorb 0x06 hsupported hf ps
  obtain ⟨u, hu, -, hphase, -, hmem⟩ := hfixed.final
  obtain ⟨rds', t', ht', hxof⟩ := completes_init_absorb 0x1F hsupported hf ps
  obtain ⟨v, hv, hstart⟩ := hxof.xof
  exact ⟨⟨u, (ht.append hu).runs, hphase, hmem⟩, v, (ht'.append hv).runs, hstart.phase,
    by rw [hstart.mem, Nat.zero_div]; rfl⟩

end Sys2Proof.Machine
end

section
/-! ## A block that fills (42_sponge.md R151, R155, R162) -/

namespace Sys2Proof.Machine

theorem outLen_le_of_supported : ∀ n ∈ supportedOutLens, n.toNat ≤ 64 := by decide

/-- No command carries as many bytes as a block has. -/
theorem Streaming.eight_lt_rate {d : Domain} {s : State} (h : Streaming d s) : 8 < s.rate.toNat := by
  have hle := outLen_le_of_supported _ h.outlen
  have hrate := h.rate
  omega

/-- A command that reaches the end of the block: `k` of its bytes lie before it, and the `r` others end before the next
one does. -/
theorem Streaming.split_at_block {d : Domain} {s : State} (h : Streaming d s) {n : Imm} (hn : n.toNat ≤ 8)
    (hge : s.rate.toNat ≤ s.pos.toNat + n.toNat) :
    ∃ k r, s.pos.toNat + k = s.rate.toNat ∧ n.toNat = k + r ∧ r < s.rate.toNat ∧ (BitVec.ofNat 8 r).toNat = r := by
  have hpos := h.pos
  have hblock := h.eight_lt_rate
  refine ⟨s.rate.toNat - s.pos.toNat, s.pos.toNat + n.toNat - s.rate.toNat, by omega, by omega, by omega, ?_⟩
  rw [BitVec.toNat_ofNat]
  omega

theorem streaming_of_inv {d : Domain} {s : State} (h : s.Inv) (hd : streamDomain s.phase = some d) : Streaming d s :=
  (contextOk_iff_streaming hd).1 h.context

theorem wf_keccakP (m : Memory) : (keccakP m).wf = true := wf_memoryOf _

/-- The state past the last byte of a block whose array is `m` (R151, R155). -/
def nextBlock (m : Memory) (s : State) : State :=
  { s with mem := keccakP m, pos := 0, permCount := s.permCount + 1 }

theorem nextBlock_eq (m : Memory) (s : State) :
    { applyPermutation { s with mem := m } with pos := 0 } = nextBlock m s := by
  rw [applyPermutation, permuteBy_eq_keccakP]; rfl

theorem Ready.nextBlock {s : State} (h : Ready s) (m : Memory) : Ready (nextBlock m s) :=
  ⟨wf_keccakP m, Nat.zero_lt_of_lt h.pos, h.rate⟩

/-- Bytes that fill the block and bytes that begin the next: the permutation runs between them (R151). -/
theorem absorbBytes_across {xs ys : List Byte} {s : State} (h : Ready s) (hx : s.pos.toNat + xs.length = s.rate.toNat)
    (hy : ys.length < s.rate.toNat) :
    absorbBytes (xs ++ ys) s = .ok
      { s with mem := xorBytes (keccakP (xorBytes s.mem s.pos.toNat xs)) 0 ys, pos := BitVec.ofNat 8 ys.length,
               permCount := s.permCount + 1 } := by
  have hnext := h.nextBlock (xorBytes s.mem s.pos.toNat xs)
  rw [absorbBytes_append, absorbBytes_fill xs h hx, nextBlock_eq]
  refine (absorbBytes_within ys hnext ((Nat.zero_add _).trans_lt hy)).trans ?_
  simp [Machine.nextBlock]

/-- The last bytes of a block and the first of the next: the permutation runs between them (R155). -/
theorem squeezeBytes_across {k n : Nat} {s : State} (h : Ready s) (hk : s.pos.toNat + k = s.rate.toNat)
    (hn : n < s.rate.toNat) :
    squeezeBytes (k + n) s = .ok
      (bytesFrom s.mem s.pos.toNat k ++ bytesFrom (keccakP s.mem) 0 n,
        { s with mem := keccakP s.mem, pos := BitVec.ofNat 8 n, permCount := s.permCount + 1 }) := by
  have hfill := squeezeBytes_fill h hk
  rw [nextBlock_eq s.mem s] at hfill
  rw [squeezeBytes_add hfill (squeezeBytes_within (h.nextBlock s.mem) ((Nat.zero_add n).trans_lt hn))]
  simp [Machine.nextBlock]

/-- ABSORB commands whose bytes fill the block permute once, and POS is back to 0. -/
theorem absorbCommands_fill (ps : List (Imm × Word)) {s : State} (hf : s.fault = false) (hp : s.phase = .absorbing)
    (h : Ready s) (hlen : s.pos.toNat + (messageOf ps).length = s.rate.toNat) :
    ∃ u, performAll (absorbCommands ps) s = .next u ∧ u.permCount = s.permCount + 1 ∧ u.pos = 0 := by
  obtain ⟨rds, hrun⟩ := completes_absorbCommands ps hf hp (absorbBytes_fill (messageOf ps) h hlen)
  exact ⟨_, hrun.runs, rfl, rfl⟩

/-- ABSORB commands whose bytes end within the block move POS past them and do not permute. -/
theorem absorbCommands_within (ps : List (Imm × Word)) {s : State} (hf : s.fault = false) (hp : s.phase = .absorbing)
    (h : Ready s) (hlen : s.pos.toNat + (messageOf ps).length < s.rate.toNat) :
    ∃ u, performAll (absorbCommands ps) s = .next u ∧ u.permCount = s.permCount ∧
      u.pos.toNat = s.pos.toNat + (messageOf ps).length := by
  obtain ⟨rds, hrun⟩ := completes_absorbCommands ps hf hp (absorbBytes_within (messageOf ps) h hlen)
  refine ⟨_, hrun.runs, rfl, ?_⟩
  have hrate := h.rate
  change (s.pos + BitVec.ofNat 8 (messageOf ps).length).toNat = _
  rw [BitVec.toNat_add, BitVec.toNat_ofNat]
  omega

theorem exec_init (n : Imm) {s : State} (hf : s.fault = false) :
    exec (.init n) s = .next (respond true 0 (initContext n s)) :=
  exec_runs hf rfl rfl

/-- Settles O51: the context of INIT has POS = 0, so RATE bytes fill its block and one byte less ends within it. -/
theorem aFullBlockPermutesOnce : Obligations.AFullBlockPermutesOnce := by
  intro n s t ps hf hn ht _
  have hsupported := supported_of_toNat hn
  rw [exec_init n hf] at ht
  cases ht
  have hready := ((bodyOk_initContext hsupported s).ready (d := .none) rfl).respond true 0
  have hrate : (respond true 0 (initContext n s)).rate.toNat = 200 - 2 * n.toNat := (rate_of_supported n hsupported).1
  have hpos : (respond true 0 (initContext n s)).pos.toNat = 0 := rfl
  refine ⟨fun hlen => absorbCommands_fill ps hf rfl hready (by omega), fun hlen => ?_⟩
  obtain ⟨u, hrun, hcount, hend⟩ := absorbCommands_within ps (s := respond true 0 (initContext n s)) hf rfl hready
    (by omega)
  exact ⟨u, hrun, hcount, by omega⟩

end Sys2Proof.Machine
end

section
/-! ## The sponge commands (42_sponge.md R150 to R159) -/

namespace Sys2Proof.Machine

/-! ### INIT and DISCARD -/

/-- Settles O30: INIT has no check of the state, and its rate in 8 bits is the one of the rule. -/
theorem initStartsAContext : Obligations.InitStartsAContext := by
  refine ⟨opcodeRule_of_immCheck .init (by decide) (fun imm hlegal => ?_) (fun imm hillegal => ?_), fun n s hf hn => ?_⟩
  · exact (Laws.ImmLegal.init imm).1 (by simpa [Instr.wf] using supported_of_toNat hlegal)
  · have hcheck : (imm == 16 || imm == 28 || imm == 32 || imm == 48 || imm == 64) = false := by
      simpa [← BitVec.toNat_inj, and_assoc] using hillegal
    rw [immCheck, hcheck]; rfl
  · obtain ⟨hrate, -⟩ := rate_of_supported n (supported_of_toNat hn)
    exact ⟨[], 200 - 2 * n, fun _ => rfl, hrate, exec_init n hf⟩

theorem exec_discard {s : State} (hf : s.fault = false) : exec .discard s = .next (respond true 0 (clearContext s)) :=
  exec_runs hf rfl rfl

/-- Settles O31: DISCARD takes no immediate and has no check of the state. -/
theorem discardDestroysTheContext : Obligations.DiscardDestroysTheContext :=
  ⟨opcodeRule_zero_imm .discard fun _ => rfl, fun _ hf => ⟨[], fun _ => rfl, exec_discard hf⟩⟩

/-! ### ABSORB -/

/-- Bytes `j` to `j + n - 1` of an operand word. -/
def wordBytes (w : Word) (j n : Nat) : List Byte := (List.range n).map fun k => byteOfWord w (j + k)

theorem length_wordBytes (w : Word) (j n : Nat) : (wordBytes w j n).length = n := by simp [wordBytes]

theorem operandBytes_eq_wordBytes (n : Imm) (a : Word) : operandBytes n a = wordBytes a 0 n.toNat := by
  simp [operandBytes, wordBytes]

theorem wordBytes_add (w : Word) (j k n : Nat) : wordBytes w j (k + n) = wordBytes w j k ++ wordBytes w (j + k) n := by
  simp [wordBytes, List.range_add, Nat.add_assoc]

/-- Bytes of an operand XORed into S from `p` on: each at its address, and no other byte changes. -/
theorem read_xor_wordBytes {m : Memory} (h : m.wf = true) (w : Word) (j : Nat) {p n : Nat} (hp : p + n ≤ 200) (a : Nat) :
    (xorBytes m p (wordBytes w j n)).read a =
      m.read a ^^^ (if p ≤ a ∧ a < p + n then byteAt w (j + (a - p)) else 0) := by
  rw [read_xorBytes _ h (by rwa [length_wordBytes]), length_wordBytes, wordBytes, getD_map_range, byteAt_eq_byteOfWord]
  congr 1
  by_cases ha : p ≤ a ∧ a < p + n
  · rw [if_pos ha, if_pos ha, if_pos (by omega)]
  · rw [if_neg ha, if_neg ha]

theorem exec_absorb {n : Imm} {a : Word} {s t : State} (hf : s.fault = false) (hp : s.phase = .absorbing)
    (ht : absorbBytes (operandBytes n a) s = .ok t) : exec (.absorb n a) s = .next (respond true 0 t) :=
  exec_runs hf (by rw [stateCheck, hp]; rfl) (by rw [effect, ht]; rfl)

/-- Settles O32: the bytes end within the block, or `k` of them fill it and the rest begin the next. -/
theorem absorbXorsTheBytes : Obligations.AbsorbXorsTheBytes := by
  refine ⟨opcodeRule_imm_le .absorb 8 fun _ => rfl, fun n a s hinv hf hp hn hlt => ?_, fun n a s hinv hf hp hn hge => ?_,
    fun n a s hf hp => exec_wrongPhase hf hp rfl (by decide)⟩
  · have hready := (streaming_of_inv hinv (d := .none) (hp ▸ rfl)).ready hinv.memory
    have hrate := hready.rate
    refine ⟨_, exec_absorb_within a hf hp hready hlt, fun j => ?_⟩
    rw [operandBytes_eq_wordBytes, read_xor_wordBytes hready.mem a 0 (by omega), Nat.zero_add]
  · have hstream := streaming_of_inv hinv (d := .none) (hp ▸ rfl)
    have hready := hstream.ready hinv.memory
    have hrate := hready.rate
    obtain ⟨k, r, hk, hr, hrest, hpos⟩ := hstream.split_at_block hn hge
    have hrun := absorbBytes_across (xs := wordBytes a 0 k) (ys := wordBytes a (0 + k) r) hready
      (by rwa [length_wordBytes]) (by rwa [length_wordBytes])
    rw [← wordBytes_add, ← hr, ← operandBytes_eq_wordBytes, length_wordBytes] at hrun
    refine ⟨xorBytes s.mem s.pos.toNat (wordBytes a 0 k), _, BitVec.ofNat 8 r, by omega, exec_absorb hf hp hrun,
      fun j => ?_, fun j => ?_⟩
    · rw [read_xor_wordBytes hready.mem a 0 (by omega), Nat.zero_add, hk]
    · rw [read_xor_wordBytes (wf_keccakP _) a _ (by omega), hpos]
      simp only [Nat.zero_le, true_and, Nat.zero_add, Nat.sub_zero, show s.rate.toNat - s.pos.toNat = k by omega]

/-! ### FINAL and XOF -/

theorem endAbsorbing_eq (dom : Domain) (ph : Phase) (m : Memory) (s : State) :
    endAbsorbing dom ph { s with mem := m } =
      { s with mem := keccakP m, permCount := s.permCount + 1, pos := 0, domain := dom, phase := ph } := by
  rw [endAbsorbing, applyPermutation, permuteBy_eq_keccakP]

/-- What FINAL and XOF share: in ABSORBING both padding XORs land in S, which is then permuted. -/
theorem exec_padding {i : Instr} {d : Byte} {dom : Domain} {ph : Phase} {s : State} (hinv : s.Inv)
    (hf : s.fault = false) (hp : s.phase = .absorbing) (hc : stateCheck i s = .none)
    (he : ∀ {m}, padBlock d s = .ok m → effect i s = .ok (0, endAbsorbing dom ph { s with mem := m })) :
    ∃ m : Memory, exec i s = .next { s with
        mem := keccakP m, permCount := s.permCount + 1, pos := 0, domain := dom, phase := ph,
        responses := s.responses ++ [⟨true, 0⟩] } ∧
      ∀ j, m.read j = s.mem.read j ^^^ (if j = s.pos.toNat then d else 0) ^^^
        (if j + 1 = s.rate.toNat then 0x80 else 0) := by
  have hready := (streaming_of_inv hinv (d := .none) (hp ▸ rfl)).ready hinv.memory
  obtain ⟨m, hm, -, hread⟩ := padBlock_ready hready d
  refine ⟨m, ?_, hread⟩
  rw [exec_runs hf hc (he hm), endAbsorbing_eq]
  rfl

/-- Settles O33: FINAL takes no immediate, pads with 0x06 in ABSORBING, and its phase check fails elsewhere. -/
theorem finalPadsAndPermutes : Obligations.FinalPadsAndPermutes :=
  ⟨opcodeRule_zero_imm .final fun _ => rfl,
    fun _ hinv hf hp => exec_padding hinv hf hp (by rw [stateCheck, hp]; rfl) effect_final,
    fun _ hf hp => exec_wrongPhase hf hp rfl (by decide)⟩

/-- Settles O34: as FINAL, with the domain byte and the next phase of XOF. -/
theorem xofPadsAndSwitches : Obligations.XofPadsAndSwitches :=
  ⟨opcodeRule_zero_imm .xof fun _ => rfl,
    fun _ hinv hf hp => exec_padding hinv hf hp (by rw [stateCheck, hp]; rfl) effect_xof,
    fun _ hf hp => exec_wrongPhase hf hp rfl (by decide)⟩

/-! ### SQUEEZE -/

theorem exec_squeeze {n : Imm} {s t : State} {bs : List Byte} (hf : s.fault = false) (hp : s.phase = .squeezing)
    (ht : squeezeBytes n.toNat s = .ok (bs, t)) : exec (.squeeze n) s = .next (respond true (wordOfBytes bs) t) :=
  exec_runs hf (by rw [stateCheck, hp]; rfl) (by rw [effect, ht]; rfl)

theorem byteAt_wordOfBytes (bs : List Byte) {j : Nat} (hj : j < 8) : byteAt (wordOfBytes bs) j = bs.getD j 0 := by
  rw [byteAt_eq_byteOfWord, byteOfWord_wordOfBytes bs hj]

theorem getD_bytesFrom (m : Memory) (p n j : Nat) :
    (bytesFrom m p n).getD j 0 = if j < n then m.read (p + j) else 0 :=
  getD_map_range _ 0 n j

/-- Settles O35: the bytes end within the block, or `k` of them are its last and the rest begin the next. -/
theorem squeezeReturnsTheBytes : Obligations.SqueezeReturnsTheBytes := by
  refine ⟨opcodeRule_imm_le .squeeze 8 fun _ => rfl, fun n s hinv hf hp hn hlt => ?_, fun n s hinv hf hp hn hge => ?_,
    fun n s hf hp => exec_wrongPhase hf hp rfl (by decide)⟩
  · have hready := (streaming_of_inv hinv (d := .xof) (hp ▸ rfl)).ready hinv.memory
    have hrun := squeezeBytes_within hready hlt
    rw [BitVec.ofNat_toNat, BitVec.setWidth_eq] at hrun
    refine ⟨_, exec_squeeze hf hp hrun, fun j hj => ?_⟩
    rw [byteAt_wordOfBytes _ hj, getD_bytesFrom]
  · have hstream := streaming_of_inv hinv (d := .xof) (hp ▸ rfl)
    have hready := hstream.ready hinv.memory
    obtain ⟨k, r, hk, hr, hrest, hpos⟩ := hstream.split_at_block hn hge
    have hrun := squeezeBytes_across hready hk hrest
    rw [← hr] at hrun
    refine ⟨_, BitVec.ofNat 8 r, by omega, exec_squeeze hf hp hrun, fun j hj => ?_⟩
    have hlen : (bytesFrom s.mem s.pos.toNat k).length = k := by simp [bytesFrom]
    rw [byteAt_wordOfBytes _ hj]
    by_cases hjk : j < k
    · rw [List.getD_append _ _ _ _ (by omega), getD_bytesFrom, if_pos hjk, if_pos (by omega)]
    · have hpast : ¬ s.pos.toNat + j < s.rate.toNat := by omega
      rw [List.getD_append_right _ _ _ _ (by omega), hlen, getD_bytesFrom, if_neg hpast, Nat.zero_add,
        show s.pos.toNat + j - s.rate.toNat = j - k by omega]
      simp only [show j - k < r ↔ j < n.toNat by omega]

/-! ### DIGEST -/

theorem Completes.exec_single {i : Instr} {s t : State} {rds : List Word} (h : Completes [i] s rds t) :
    exec i s = .next t := by
  have hrun := h.runs
  rw [performAll] at hrun
  cases he : exec i s with
  | next u => rw [he] at hrun; exact hrun
  | fault f => rw [he] at hrun; cases hrun
  | refused r => rw [he] at hrun; cases hrun

/-- Settles O36: DIGEST reads the bytes of its word that lie below OUTLEN; the phase is checked first, then the range. -/
theorem digestReadsTheDigest : Obligations.DigestReadsTheDigest := by
  refine ⟨opcodeRule_imm_le .digest 7 fun _ => rfl, fun k s hf hp hk hlt => ?_,
    fun k s hf hp => exec_wrongPhase hf hp rfl (by decide), fun k s hf hp hge => ?_⟩
  · refine ⟨_, (completes_digest hf hp hk hlt).exec_single, fun j hj => ?_⟩
    rw [byteAt_eq_byteOfWord, digestWord, byteOfWord_word _ _ _ _ hj]
    simp only [show j < min 8 (s.outlen.toNat - 8 * k.toNat) ↔ 8 * k.toNat + j < s.outlen.toNat by omega]
  · have hrange : dynamicCheck .digest k s.outlen = .badImm := by
      rw [dynamicCheck, decide_eq_false (Nat.not_lt.2 hge)]; rfl
    exact exec_faultsWith hf (by rw [stateCheck, hp]; exact hrange) (by decide)

/-! ### The phases -/

/-- A command that executes leaves the phase of the table (R159). -/
theorem phaseAfter_of_effect {i : Instr} {s t : State} {rd : Word} (hc : phaseCheck i.op s.phase = .none)
    (h : effect i s = .ok (rd, t)) : phaseAfter s.phase i = some t.phase := by
  have hframe := (effect_writes h).registerFrame.phase
  cases i with
  | init n | discard => cases h; rfl
  | final | xof =>
    obtain ⟨m, -, hr⟩ := map_ok h
    cases hr
    exact if_pos (phase_of_codeUnless (by decide) hc)
  | absorb n a | squeeze n | digest k =>
    have hp := phase_of_codeUnless (by decide) hc
    rw [(hframe (by simp [Instr.op])).1, hp]
    rfl
  | nop | wrlane | rdlane | permute | ror32 | ror64 | andn | intlv | dintlv | irol | rdstat | rdid | rdcnt | rdfault =>
    rw [(hframe (by simp [Instr.op])).1]
    rfl

/-- A command that fails a check of the state is one for which the table says fault, or one that the table passes:
DIGEST out of range, WRLANE or PERMUTE (R159). -/
theorem phaseAfter_of_failed {i : Instr} {s : State} (hc : stateCheck i s ≠ .none) :
    phaseAfter s.phase i = none ∨
    phaseAfter s.phase i = some s.phase ∧ ∃ k, i = .digest k ∨ (∃ a, i = .wrlane k a) ∨ i = .permute := by
  cases i with
  | absorb | final | xof | squeeze => exact .inl (if_neg fun hp => hc (by rw [stateCheck, hp]; rfl))
  | digest k =>
    by_cases hp : s.phase = .final
    · exact .inr ⟨by rw [hp]; rfl, k, .inl rfl⟩
    · exact .inl (if_neg hp)
  | wrlane k a => exact .inr ⟨rfl, k, .inr (.inl ⟨a, rfl⟩)⟩
  | permute => exact .inr ⟨rfl, 0, .inr (.inr rfl)⟩
  | nop | init | discard | rdlane | ror32 | ror64 | andn | intlv | dintlv | irol | rdstat | rdid | rdcnt | rdfault =>
    exact absurd rfl hc

/-- Settles O37, by the ways a command ends with the latch clear: it fails a check, or it executes. -/
theorem phasesFollowTheTable : Obligations.PhasesFollowTheTable := by
  intro i s t hf h
  obtain ⟨hset, -⟩ | ⟨-, hc, rfl⟩ | ⟨hmay, rd, u, he, rfl⟩ := exec_next h
  · simp [hf] at hset
  · obtain hnone | ⟨hsome, hi⟩ := phaseAfter_of_failed hc
    · rw [hnone]; exact ⟨rfl, rfl⟩
    · rw [hsome]; exact ⟨rfl, fun _ => hi⟩
  · obtain ⟨-, hc⟩ | ⟨hset, -⟩ := hmay
    · obtain ⟨hfault, -⟩ := effect_sameShell he
      rw [phaseAfter_of_effect (phaseCheck_of_stateCheck hc) he]
      exact ⟨rfl, fun hset => by simp [hfault, hf] at hset⟩
    · simp [hf] at hset

end Sys2Proof.Machine
end

section
/-! ## The status and system commands (43_system.md R180 to R184) -/

namespace Sys2Proof.Machine

/-! ### The words they return, as numbers -/

/-- The number of two fields side by side. -/
theorem toNat_append_eq_add {m n : Nat} (x : BitVec m) (y : BitVec n) :
    (x ++ y).toNat = 2 ^ n * x.toNat + y.toNat := by
  rw [BitVec.toNat_append, ← Nat.shiftLeft_add_eq_or_of_lt y.isLt, Nat.shiftLeft_eq, Nat.mul_comm]

theorem Phase.toNat_code (p : Phase) : p.code.toNat = phaseNumber p := by cases p <;> rfl

theorem Domain.toNat_code (d : Domain) : d.code.toNat = domainNumber d := by cases d <;> rfl

theorem toNat_faultNumber (f : FaultCode) : (faultNumber f).toNat = codeNumber f := by cases f <;> rfl

/-- The layout of the STATUS word (R34). -/
theorem toNat_statusWord (s : State) :
    (statusWord s).toNat = phaseNumber s.phase + 2 ^ 3 * s.fault.toNat + 2 ^ 4 * codeNumber s.fcode +
      2 ^ 8 * domainNumber s.domain + 2 ^ 16 * s.pos.toNat + 2 ^ 24 * s.rate.toNat + 2 ^ 32 * s.outlen.toNat := by
  simp only [statusWord, toNat_append_eq_add, BitVec.toNat_ofBool, Phase.toNat_code, Domain.toNat_code,
    toNat_faultNumber, BitVec.ofNat_eq_ofNat, BitVec.toNat_ofNat, Nat.zero_mod]
  omega

/-- The layout of the FAULTINFO word (R35). -/
theorem toNat_faultInfoWord (s : State) :
    (faultInfoWord s).toNat = s.fcmd.toNat + 2 ^ 32 * codeNumber s.fcode := by
  simp only [faultInfoWord, toNat_append_eq_add, toNat_faultNumber, BitVec.ofNat_eq_ofNat, BitVec.toNat_ofNat, Nat.zero_mod]
  omega

/-- While FAULT = 0 both fault registers of a well-kept state are 0 (R31, R32). -/
theorem State.Inv.faultInfoWord_eq_zero {s : State} (h : s.Inv) (hf : s.fault = false) : faultInfoWord s = 0 := by
  obtain ⟨-, -, hlatch⟩ := h
  rw [State.LatchOk, hf, if_neg Bool.false_ne_true] at hlatch
  obtain ⟨hcode, hcmd⟩ := hlatch
  rw [faultInfoWord, hcode, hcmd]
  rfl

theorem idWord_w64 : idWord .w64 = 0x00000000C8180101 := rfl

theorem idWord_w32i : idWord .w32i = 0x00000000C8180201 := rfl

/-! ### The commands -/

/-- A read-only command whose effect answers `rd` and leaves the state alone does so in every phase and with the latch
clear or set (R77). -/
theorem exec_answersOnly {i : Instr} {s : State} {rd : Word} (hr : readOnly i.op = true)
    (he : effect i s = .ok (rd, s)) : AnswersOnly i s rd :=
  exec_readOnly hr (stateCheck_readOnly hr s) he

/-- Settles O16: NOP is in the read-only set, and its effect is the response alone. -/
theorem nopAnswersZero : Obligations.NopAnswersZero :=
  ⟨opcodeRule_zero_imm .nop fun _ => rfl, fun _ => exec_answersOnly rfl rfl⟩

/-- Settles O17: RDSTAT is in the read-only set, and its result is the STATUS word. -/
theorem rdstatReturnsStatus : Obligations.RdstatReturnsStatus :=
  ⟨opcodeRule_zero_imm .rdstat fun _ => rfl, fun s => ⟨statusWord s, exec_answersOnly rfl rfl, toNat_statusWord s⟩⟩

/-- Settles O18: RDCNT is in the read-only set, and PERM_COUNT is no register that INIT or DISCARD writes. -/
theorem rdcntReturnsTheCount : Obligations.RdcntReturnsTheCount :=
  ⟨opcodeRule_zero_imm .rdcnt fun _ => rfl, fun _ => exec_answersOnly rfl rfl,
    fun _ _ _ h => (exec_registerFrame h).count (by simp [Instr.op]),
    fun _ _ h => (exec_registerFrame h).count (by simp [Instr.op])⟩

/-- Settles O19: RDFAULT is in the read-only set, and its result is the FAULTINFO word. -/
theorem rdfaultReturnsFaultInfo : Obligations.RdfaultReturnsFaultInfo :=
  ⟨opcodeRule_zero_imm .rdfault fun _ => rfl, fun s =>
    ⟨faultInfoWord s, exec_answersOnly rfl rfl, toNat_faultInfoWord s, State.Inv.faultInfoWord_eq_zero⟩⟩

/-- Settles O20: RDID is in the read-only set, and the ID word shows the instance by the code of its datapath. -/
theorem rdidReturnsTheId : Obligations.RdidReturnsTheId := by
  refine ⟨opcodeRule_zero_imm .rdid fun _ => rfl, fun s => ⟨fun hdp => ?_, fun hdp => ?_⟩⟩
  · rw [← idWord_w64, ← hdp]
    exact exec_answersOnly rfl rfl
  · rw [← idWord_w32i, ← hdp]
    exact exec_answersOnly rfl rfl

end Sys2Proof.Machine
end

section
/-! ## The fault latch until reset (60_exceptions.md R212, R213) -/

namespace Sys2Proof.Machine

/-! ### One command while FAULT = 1 -/

theorem rejectMalformed_of_set {s : State} (hf : s.fault = true) (cmd : CmdWord) (f : FaultCode) :
    rejectMalformed cmd f s = refuse s :=
  if_pos hf

/-- A command that meets a set latch is refused or is a read, so it adds its response and changes nothing else. -/
theorem exec_next_of_set {i : Instr} {s t : State} (hf : s.fault = true) (h : exec i s = .next t) :
    ∃ r, t = { s with responses := s.responses ++ [r] } := by
  obtain ⟨-, -, rfl⟩ | ⟨hclear, -, -⟩ | ⟨hmay, rd, u, he, rfl⟩ := exec_next h
  · exact ⟨⟨false, 0⟩, rfl⟩
  · simp [hf] at hclear
  · have hread : readOnly i.op = true := by simpa [hf] using hmay
    obtain rfl := (effect_writes he).eq_of_readOnly hread
    exact ⟨⟨true, rd⟩, rfl⟩

theorem runTransaction_next_of_set {tr : Transaction} {s t : State} (hf : s.fault = true)
    (h : runTransaction tr s = .next t) : ∃ r, t = { s with responses := s.responses ++ [r] } := by
  cases hd : decode tr with
  | error f =>
    rw [runTransaction_error hd, rejectMalformed_of_set hf] at h
    cases h
    exact ⟨⟨false, 0⟩, rfl⟩
  | ok i => rw [runTransaction_ok hd] at h; exact exec_next_of_set hf h

/-- The step of an event that is no reset. -/
theorem step_next_of_set {s t : State} {e : HostEvent} {rest : List HostEvent} (hf : s.fault = true)
    (hinbox : s.inbox = e :: rest) (he : e.isReset = false) (h : step s = .next t) :
    ∃ r, t = { s with inbox := rest, responses := s.responses ++ [r] } := by
  cases e with
  | issue tr =>
    rw [step_issue hinbox] at h
    have htaken : State.fault { s with inbox := rest } = true := hf
    exact runTransaction_next_of_set htaken h
  | reset | cutByReset => cases he

/-! ### A run of them -/

/-- A run of one step and more, on any machine. -/
theorem run_succ {M : Host.Core} {k : Nat} {s t : M.State} (h : M.run (k + 1) s = .next t) :
    ∃ u, M.step s = .next u ∧ M.run k u = .next t := by
  rw [Host.Core.run] at h
  split at h
  · rename_i u hu; exact ⟨u, hu, h⟩
  · cases h
  · cases h

/-- Settles O14, by induction on the steps: each takes one command off the list, adds one response and keeps the rest. -/
theorem latchLastsUntilReset : Obligations.LatchLastsUntilReset := by
  intro k
  induction k with
  | zero =>
    intro s t _ _ _ h
    cases h
    exact ⟨[], rfl, by simp⟩
  | succ k ih =>
    intro s t hf hk hevents h
    obtain ⟨u, hu, hrun⟩ := run_succ h
    cases hinbox : s.inbox with
    | nil => simp [hinbox] at hk
    | cons e rest =>
      rw [hinbox] at hk hevents
      obtain ⟨he, hlater⟩ := List.forall_mem_cons.1 hevents
      obtain ⟨r, rfl⟩ := step_next_of_set hf hinbox he hu
      obtain ⟨rs, hlen, rfl⟩ := ih { s with inbox := rest, responses := s.responses ++ [r] } t hf
        (Nat.le_of_succ_le_succ hk) hlater hrun
      exact ⟨r :: rs, congrArg Nat.succ hlen, by simp⟩

end Sys2Proof.Machine
end

section
/-! ## The fault checks of a transaction (60_exceptions.md R200 to R214) -/

namespace Sys2Proof.Machine

/-! ### Malformed words (R78, R210, R212) -/

theorem rejectMalformed_of_clear {s : State} (hf : s.fault = false) (cmd : CmdWord) (f : FaultCode) :
    rejectMalformed cmd f s = raiseFault cmd f s :=
  if_neg (by simp [hf])

theorem runTransaction_error_of_clear {t : Transaction} {f : FaultCode} {s : State} (hf : s.fault = false)
    (h : decode t = .error f) : runTransaction t s = .next (raiseFault t.cmd f s) := by
  rw [runTransaction_error h, rejectMalformed_of_clear hf]

theorem runTransaction_error_of_set {t : Transaction} {f : FaultCode} {s : State} (hf : s.fault = true)
    (h : decode t = .error f) : runTransaction t s = .next (refuse s) := by
  rw [runTransaction_error h, rejectMalformed_of_set hf]

/-- Settles O4: the step runs the transaction it takes, and one that does not decode is rejected as the latch says. -/
theorem malformedWordsAreRejected : Obligations.MalformedWordsAreRejected := by
  intro s t rest f hinbox hd
  rw [step_issue hinbox]
  exact ⟨fun hf => runTransaction_error_of_clear hf hd, fun hf => runTransaction_error_of_set hf hd⟩

/-- Settles O5: with an empty list there is no next event. -/
theorem blockWaitsForACommand : Obligations.BlockWaitsForACommand := by
  intro s hinbox
  rw [step, nextEvent, hinbox]

/-! ### While FAULT = 1 (R212) -/

/-- Settles O13: a read executes whatever the latch says, and everything else is refused. -/
theorem latchRefusesAllButReads : Obligations.LatchRefusesAllButReads := by
  refine ⟨fun i s _ hwf hread => ?_, fun i s hf hread => ?_, fun t s f hf hd => ?_⟩
  · cases i with
    | nop | rdstat | rdid | rdcnt | rdfault => exact ⟨_, exec_answersOnly rfl rfl⟩
    | rdlane k => exact ⟨_, exec_rdlane (Nat.lt_succ_of_le (of_decide_eq_true hwf)) s⟩
    | init | absorb | final | xof | squeeze | digest | discard | wrlane | permute | ror32 | ror64 | andn | intlv
    | dintlv | irol => exact hread.elim
  · rw [← readOnly_iff, Bool.not_eq_true] at hread
    exact (exec_eq_perform i s).trans (perform_refused hf hread)
  · rw [step_present]
    exact runTransaction_error_of_set hf hd

/-! ### The checks of the state (R205 to R209, R214) -/

/-- Settles O11: seven of the checks are on the phase, and DIGEST has one on its range. -/
theorem failedStateChecksFault : Obligations.FailedStateChecksFault := by
  intro i s f hf h
  obtain ⟨-, -, -, hrange⟩ := digestReadsTheDigest
  cases h with
  | absorb _ _ _ hp | final _ hp | xof _ hp | squeeze _ _ hp | digestPhase _ _ hp | wrlane _ _ _ hp | permute _ hp =>
    exact exec_wrongPhase hf hp rfl (by decide)
  | digestRange k _ hp hge => exact hrange k s hf hp hge

/-- Whether a command that answers has faulted is what the check of the state says, and so is the code. -/
theorem exec_next_of_clear {i : Instr} {s t : State} (hf : s.fault = false) (h : exec i s = .next t) :
    (stateCheck i s = .none ∧ t.fault = false) ∨
    (stateCheck i s ≠ .none ∧ t.fault = true ∧ t.fcode = stateCheck i s) := by
  obtain ⟨hset, -, -⟩ | ⟨-, hne, rfl⟩ | ⟨hmay, rd, u, he, rfl⟩ := exec_next h
  · simp [hf] at hset
  · exact .inr ⟨hne, rfl, rfl⟩
  · obtain ⟨hfault, -⟩ := effect_sameShell he
    exact .inl ⟨by simpa [hf] using hmay, hfault.trans hf⟩

/-- The check of the state reads the opcode, the immediate, PHASE and OUTLEN. -/
theorem stateCheck_congr {i j : Instr} {s u : State} (hop : i.op = j.op) (himm : i.imm = j.imm)
    (hphase : s.phase = u.phase) (houtlen : s.outlen = u.outlen) : stateCheck i s = stateCheck j u := by
  simp only [stateCheck, hop, himm, hphase, houtlen]

/-- Settles O15: the two commands have the same check of the state, and that decides. -/
theorem noDataValueFaults : Obligations.NoDataValueFaults := by
  intro i j s u s' u' hop himm hphase houtlen hs hu hi hj
  have hcheck := stateCheck_congr hop himm hphase houtlen
  obtain ⟨hpass, hs'⟩ | ⟨hfail, hs', hcode⟩ := exec_next_of_clear hs hi <;>
    obtain ⟨hpass', hu'⟩ | ⟨hfail', hu', hcode'⟩ := exec_next_of_clear hu hj
  · exact ⟨hs'.trans hu'.symm, fun hset => by simp [hs'] at hset⟩
  · exact absurd (hcheck.symm.trans hpass) hfail'
  · exact absurd (hcheck.trans hpass') hfail
  · exact ⟨hs'.trans hu'.symm, fun _ => hcode.trans (hcheck.trans hcode'.symm)⟩

/-! ### The static checks (R201 to R204) -/

/-- The opcode map is defined on the assigned values (R74, R75): a check of the 256 of them. -/
theorem assigned_iff_ofCode : ∀ c : BitVec 8, Assigned c.toNat ↔ (Op.ofCode c).isSome = true := by decide

theorem assigned_code (o : Op) : Assigned o.code.toNat := by
  rw [assigned_iff_ofCode, Op.ofCode_code]; rfl

theorem opField_eq_toNat (t : Transaction) : opField t = t.cmd.op.toNat := (CmdWord.toNat_op t.cmd).symm

theorem ofCode_eq_none_iff (t : Transaction) : Op.ofCode t.cmd.op = none ↔ ¬ Assigned (opField t) := by
  rw [opField_eq_toNat, assigned_iff_ofCode, Bool.not_eq_true, Option.isSome_eq_false_iff, Option.isNone_iff_eq_none]

/-- The check that a word which does not decode fails first: of the opcode, the reserved field, or the immediate. -/
theorem decode_error_cases {t : Transaction} {f : FaultCode} (h : decode t = .error f) :
    (Op.ofCode t.cmd.op = none ∧ f = .illegalOp) ∨
    (Op.ofCode t.cmd.op ≠ none ∧ t.cmd.rsv ≠ 0 ∧ f = .rsvNonzero) ∨
    (Op.ofCode t.cmd.op ≠ none ∧ t.cmd.rsv = 0 ∧ (f = .badImm ∨ f = .badOutlen)) := by
  cases ho : Op.ofCode t.cmd.op with
  | none => rw [decode_reserved ho] at h; cases h; exact .inl ⟨rfl, rfl⟩
  | some o =>
    have hsome : some o ≠ none := Option.some_ne_none o
    by_cases hrsv : t.cmd.rsv = 0
    · by_cases himm : immCheck o t.cmd.imm = .none
      · rw [decode_legal ho hrsv himm] at h; cases h
      · rw [decode_imm ho hrsv himm] at h
        cases h
        exact .inr (.inr ⟨hsome, hrsv, (immCheck_codes o t.cmd.imm).resolve_left himm⟩)
    · rw [decode_rsv ho hrsv] at h; cases h; exact .inr (.inl ⟨hsome, hrsv, rfl⟩)

theorem decode_eq_illegalOp_iff (t : Transaction) : decode t = .error .illegalOp ↔ Op.ofCode t.cmd.op = none := by
  refine ⟨fun h => ?_, decode_reserved⟩
  obtain ⟨ho, -⟩ | ⟨-, -, hf⟩ | ⟨-, -, hf⟩ := decode_error_cases h
  · exact ho
  · cases hf
  · simp at hf

/-- Settles O8: the reserved ranges are the values that are not assigned, and the reserved field is checked next. -/
theorem reservedOpcodesAndFieldsAreIllegal : Obligations.ReservedOpcodesAndFieldsAreIllegal := by
  intro t
  have hlt : opField t < 256 := by rw [opField_eq_toNat]; exact t.cmd.op.isLt
  refine ⟨?_, fun hassigned hrsv => ?_, fun hrsv h => ?_⟩
  · rw [decode_eq_illegalOp_iff, ofCode_eq_none_iff]
    unfold Assigned
    omega
  · rw [Ne, decode_eq_illegalOp_iff] at hassigned
    obtain ⟨o, ho⟩ := Option.ne_none_iff_exists'.1 hassigned
    exact decode_rsv ho ((rsvField_eq_zero t).not.1 hrsv)
  · obtain ⟨-, hf⟩ | ⟨-, hne, -⟩ | ⟨-, -, hf⟩ := decode_error_cases h
    · cases hf
    · exact hne ((rsvField_eq_zero t).1 hrsv)
    · simp at hf

/-! ### The first check that fails (R211)

The model's checks name what is legal and the rule what is not; these four turn the one into the other. -/

theorem codeUnless_decide {p : Prop} [Decidable p] (f : FaultCode) :
    codeUnless (decide p) f = if ¬p then f else .none := by
  by_cases h : p <;> simp [codeUnless, h]

theorem codeUnless_phase (p q : Phase) (f : FaultCode) : codeUnless (p == q) f = if p ≠ q then f else .none := by
  by_cases h : p = q <;> simp [codeUnless, h]

theorem codeUnless_zero (imm : Imm) (f : FaultCode) : codeUnless (imm == 0) f = if imm.toNat ≠ 0 then f else .none := by
  by_cases h : imm = 0 <;> simp [codeUnless, h, ← BitVec.toNat_inj]

theorem codeUnless_outLen (imm : Imm) (f : FaultCode) :
    codeUnless (imm == 16 || imm == 28 || imm == 32 || imm == 48 || imm == 64) f =
      if imm.toNat ∉ [16, 28, 32, 48, 64] then f else .none := by
  have hlegal : (imm == 16 || imm == 28 || imm == 32 || imm == 48 || imm == 64) =
      decide (imm.toNat ∈ [16, 28, 32, 48, 64]) := by
    rw [Bool.eq_iff_iff]
    simp [← BitVec.toNat_inj, or_assoc]
  rw [hlegal, codeUnless_decide]

/-- The first check of R211 that fails is the one whose code the model's checks give: the opcode, the reserved field,
then the immediate, the phase and the range, of which each opcode picks its own lines of the rule; in the rule's words
the two chains test the same conditions. -/
theorem firstFailed_iff (t : Transaction) (s : State) (f : FaultCode) :
    FirstFailed (opField t) (rsvField t) (immField t) s.phase s.outlen.toNat f ↔ f = checkCode t.cmd s := by
  rw [checkCode, staticCheck, FirstFailed]
  cases ho : Op.ofCode t.cmd.op with
  | none => rw [if_pos ((ofCode_eq_none_iff t).1 ho)]
  | some o =>
    dsimp only
    rw [opField_of_ofCode ho, if_neg (not_not.2 (assigned_code o))]
    by_cases hrsv : t.cmd.rsv = 0
    · rw [if_neg (not_not.2 ((rsvField_eq_zero t).2 hrsv)), ← toNat_imm_eq_immField, if_pos hrsv]
      generalize t.cmd.imm = imm
      cases o with
      | ror32 | ror64 | irol => simp [Op.code, immCheck, phaseCheck, dynamicCheck]
      | nop | init | absorb | final | xof | squeeze | digest | discard | wrlane | rdlane | permute | andn | intlv
      | dintlv | rdstat | rdid | rdcnt | rdfault =>
        simp only [immCheck, phaseCheck, dynamicCheck, codeUnless_decide, codeUnless_phase, codeUnless_zero,
          codeUnless_outLen]
        simp [Op.code]
        split_ifs <;> rfl
    · rw [if_pos ((rsvField_eq_zero t).not.2 hrsv), if_neg hrsv]

theorem checkCode_of_decode_error {t : Transaction} {f : FaultCode} (h : decode t = .error f) (s : State) :
    checkCode t.cmd s = f ∧ f ≠ .none := by
  obtain ⟨rfl, hne⟩ := decode_error h
  exact ⟨checkCode_malformed hne s, hne⟩

theorem cmdWord_of_decode {t : Transaction} {i : Instr} (h : decode t = .ok i) : i.cmdWord = t.cmd := by
  obtain ⟨-, hcmd, -⟩ := encodeOfDecodeIsTheTransaction t i h
  exact hcmd

theorem checkCode_of_decode_ok {t : Transaction} {i : Instr} (h : decode t = .ok i) (s : State) :
    checkCode t.cmd s = stateCheck i s := by
  rw [← cmdWord_of_decode h, checkCode_cmdWord (immCheck_of_decode h)]

/-- A transaction that fails a check faults with the code of it, and FCMD is the word presented (R210). -/
theorem runTransaction_faults {t : Transaction} {s : State} (hf : s.fault = false) (hc : checkCode t.cmd s ≠ .none) :
    runTransaction t s = .next (raiseFault t.cmd (checkCode t.cmd s) s) := by
  cases hd : decode t with
  | error f =>
    obtain ⟨hcode, -⟩ := checkCode_of_decode_error hd s
    rw [runTransaction_error_of_clear hf hd, hcode]
  | ok i =>
    rw [checkCode_of_decode_ok hd] at hc ⊢
    rw [runTransaction_ok hd, exec_eq_perform, perform_faults hf hc, cmdWord_of_decode hd]

/-- A transaction that fails no check executes, from a well-kept state. -/
theorem runTransaction_executes {t : Transaction} {s : State} (h : BodyOk s) (hf : s.fault = false)
    (hc : checkCode t.cmd s = .none) :
    ∃ rd u, runTransaction t s = .next (respond true rd u) ∧ SameShell s u := by
  cases hd : decode t with
  | error f =>
    obtain ⟨hcode, hne⟩ := checkCode_of_decode_error hd s
    exact absurd (hcode.symm.trans hc) hne
  | ok i =>
    rw [checkCode_of_decode_ok hd] at hc
    obtain ⟨⟨rd, u⟩, hu⟩ := effect_answers h (immCheck_of_decode hd) (phaseCheck_of_stateCheck hc)
    exact ⟨rd, u, by rw [runTransaction_ok hd, exec_runs hf hc hu], effect_sameShell hu⟩

/-- Settles O12: the first check that fails is the model's, and a word that fails none has a defined effect. -/
theorem eachCommandReportsItsFirstFailedCheck : Obligations.EachCommandReportsItsFirstFailedCheck := by
  intro s t hinv hf
  rw [step_present]
  refine ⟨fun f hfirst hne => ?_, fun hfirst => ?_⟩
  · obtain rfl := (firstFailed_iff t s f).1 hfirst
    exact runTransaction_faults hf hne
  · have hnone := ((firstFailed_iff t s .none).1 hfirst).symm
    obtain ⟨rd, u, hrun, hfault, -, -, -, -, hresponses⟩ := runTransaction_executes ⟨hinv.memory, hinv.context⟩ hf hnone
    exact ⟨_, rd, hrun, by rw [respond_responses, hresponses], hfault.trans hf⟩

end Sys2Proof.Machine
end

section
/-! ## Reset and the response of every command (70_reset_and_hazards.md R230 to R247) -/

namespace Sys2Proof.Machine

/-! ### The reset values (R230, R231, R233) -/

theorem atResetValues_resetOf (dp : Config.Datapath) : AtResetValues (State.resetOf dp) :=
  ⟨fun a _ => Memory.read_nil a, rfl, rfl, rfl, rfl, rfl, rfl, rfl, rfl, rfl,
    BitVec.eq_of_toNat_eq (toNat_statusWord _), (resetMeetsTheInvariants dp).faultInfoWord_eq_zero rfl⟩

/-- Reset keeps the two lists of the port, and no register's value depends on them. -/
theorem atResetValues_applyReset (s : State) : AtResetValues (applyReset s) := atResetValues_resetOf s.datapath

/-- Settles O2: the registers are `atResetValues_resetOf`, and the other three fields are written out in the model. -/
theorem resetStateHasResetValues : Obligations.ResetStateHasResetValues := fun dp =>
  ⟨atResetValues_resetOf dp, resetOf_datapath dp, resetOf_inbox dp, resetOf_responses dp⟩

/-- A reset applied by itself and one that cuts a command short are the same step (R233). -/
theorem step_reset {s : State} {e : HostEvent} {rest : List HostEvent} (hinbox : s.inbox = e :: rest)
    (he : e.isReset = true) : step s = .next (applyReset { s with inbox := rest }) := by
  cases e with
  | issue => cases he
  | reset | cutByReset => rw [step, nextEvent, hinbox]

/-! ### PERM_COUNT over one command (R33) -/

/-- ABSORB carries at most 8 bytes, so it ends within its block or in the next one. -/
theorem exec_absorb_permCount {n : Imm} {a : Word} {s t : State} (hinv : s.Inv) (hf : s.fault = false)
    (hp : s.phase = .absorbing) (hn : n.toNat ≤ 8) (h : exec (.absorb n a) s = .next t) :
    t.permCount = s.permCount ∨ t.permCount = s.permCount + 1 := by
  obtain ⟨-, hwithin, hacross, -⟩ := absorbXorsTheBytes
  obtain hlt | hge := Nat.lt_or_ge (s.pos.toNat + n.toNat) s.rate.toNat
  · obtain ⟨m, hrun, -⟩ := hwithin n a s hinv hf hp hn hlt
    cases hrun.symm.trans h
    exact .inl rfl
  · obtain ⟨m, m', pos, -, hrun, -⟩ := hacross n a s hinv hf hp hn hge
    cases hrun.symm.trans h
    exact .inr rfl

/-- SQUEEZE returns at most 8 bytes, so it ends within its block or in the next one. -/
theorem exec_squeeze_permCount {n : Imm} {s t : State} (hinv : s.Inv) (hf : s.fault = false)
    (hp : s.phase = .squeezing) (hn : n.toNat ≤ 8) (h : exec (.squeeze n) s = .next t) :
    t.permCount = s.permCount ∨ t.permCount = s.permCount + 1 := by
  obtain ⟨-, hwithin, hacross, -⟩ := squeezeReturnsTheBytes
  obtain hlt | hge := Nat.lt_or_ge (s.pos.toNat + n.toNat) s.rate.toNat
  · obtain ⟨rd, hrun, -⟩ := hwithin n s hinv hf hp hn hlt
    cases hrun.symm.trans h
    exact .inl rfl
  · obtain ⟨rd, pos, -, hrun, -⟩ := hacross n s hinv hf hp hn hge
    cases hrun.symm.trans h
    exact .inr rfl

/-- Of the commands that execute, PERMUTE, FINAL and XOF permute once and the two byte streams at most once. -/
theorem exec_permCount {i : Instr} {s t : State} (hinv : s.Inv) (himm : immCheck i.op i.imm = .none)
    (h : exec i s = .next t) : t.permCount = s.permCount ∨ t.permCount = s.permCount + 1 := by
  obtain ⟨-, -, rfl⟩ | ⟨-, -, rfl⟩ | ⟨hmay, rd, u, he, rfl⟩ := exec_next h
  · exact .inl rfl
  · exact .inl rfl
  · have hwrites := effect_writes he
    obtain ⟨hclear, hcheck⟩ | ⟨-, hread⟩ := hmay
    · have hphase := phaseCheck_of_stateCheck hcheck
      cases hwrites with
      | nothing | init | discard | wrlane => exact .inl rfl
      | permute | final | xof => exact .inr rfl
      | @absorb n a =>
        have hn : n.toNat ≤ 8 := of_decide_eq_true ((Laws.ImmLegal.absorb n a).2 himm)
        exact exec_absorb_permCount hinv hclear (phase_of_codeUnless (by decide) hphase) hn h
      | @squeeze n =>
        have hn : n.toNat ≤ 8 := of_decide_eq_true ((Laws.ImmLegal.squeeze n).2 himm)
        exact exec_squeeze_permCount hinv hclear (phase_of_codeUnless (by decide) hphase) hn h
    · rw [hwrites.eq_of_readOnly hread]
      exact .inl rfl

@[simp] theorem rejectMalformed_permCount (cmd : CmdWord) (f : FaultCode) (s : State) :
    (rejectMalformed cmd f s).permCount = s.permCount := by
  unfold rejectMalformed; split <;> rfl

theorem runTransaction_permCount {tr : Transaction} {s t : State} (hinv : s.Inv)
    (h : runTransaction tr s = .next t) : t.permCount = s.permCount ∨ t.permCount = s.permCount + 1 := by
  cases hd : decode tr with
  | error f =>
    rw [runTransaction_error hd] at h
    cases h
    exact .inl (rejectMalformed_permCount tr.cmd f s)
  | ok i =>
    rw [runTransaction_ok hd] at h
    exact exec_permCount hinv (immCheck_of_decode hd) h

/-- Settles O1: a reset event is `applyReset`; a command keeps a set latch, and counts as `runTransaction_permCount`. -/
theorem resetGivesResetValuesAndAloneClears : Obligations.ResetGivesResetValuesAndAloneClears := by
  refine ⟨fun s e rest hinbox he => ?_, fun s t tr rest hinv hinbox hstep => ⟨fun hf => ?_, ?_⟩⟩
  · exact ⟨_, step_reset hinbox he, atResetValues_applyReset _, rfl, rfl, Nat.le_refl _⟩
  · obtain ⟨r, rfl⟩ := step_next_of_set hf hinbox rfl hstep
    exact hf
  · rw [step_issue hinbox] at hstep
    have htaken : State.Inv { s with inbox := rest } := ⟨hinv.memory, hinv.context, hinv.latch⟩
    have hcount := runTransaction_permCount htaken hstep
    exact hcount

/-! ### The events a run takes and the responses it gives (R240, R246, R247) -/

@[simp] theorem rejectMalformed_inbox (cmd : CmdWord) (f : FaultCode) (s : State) :
    (rejectMalformed cmd f s).inbox = s.inbox := by
  unfold rejectMalformed; split <;> rfl

/-- A transaction gets one response, whether or not its word decodes (R70, R78). -/
theorem runTransaction_responds {tr : Transaction} {s t : State} (h : runTransaction tr s = .next t) :
    ∃ r, t.responses = s.responses ++ [r] ∧ t.inbox = s.inbox := by
  cases hd : decode tr with
  | error f =>
    rw [runTransaction_error hd] at h
    cases h
    exact ⟨_, rejectMalformed_responses tr.cmd f s, rejectMalformed_inbox tr.cmd f s⟩
  | ok i =>
    rw [runTransaction_ok hd] at h
    obtain ⟨r, hresponses, hinbox, -⟩ := everyCommandGivesOneResponse i s t h
    exact ⟨r, hresponses, hinbox⟩

/-- From `s` to `t` the first `k` events are taken, and each that is no reset has its response. -/
structure TakesEvents (k : Nat) (s t : State) : Prop where
  inbox : t.inbox = s.inbox.drop k
  responses : t.responses.length = s.responses.length + ((s.inbox.take k).filter fun e => !e.isReset).length

theorem TakesEvents.refl (s : State) : TakesEvents 0 s s := ⟨rfl, rfl⟩

theorem TakesEvents.trans {j k : Nat} {s t u : State} (h : TakesEvents j s t) (h' : TakesEvents k t u) :
    TakesEvents (j + k) s u where
  inbox := by rw [h'.inbox, h.inbox, List.drop_drop]
  responses := by
    rw [h'.responses, h.responses, h.inbox, List.take_add, List.filter_append, List.length_append, Nat.add_assoc]

/-- A step takes the next event, where there is one: a command adds its response, and a reset none. -/
theorem step_takesEvents {s t : State} (h : step s = .next t) : TakesEvents 1 s t := by
  obtain ⟨hinbox, rfl⟩ | ⟨tr, rest, hinbox, hrun⟩ | ⟨e, rest, hinbox, he, rfl⟩ := step_next h
  · constructor <;> simp [hinbox]
  · obtain ⟨r, hresponses, hrest⟩ := runTransaction_responds hrun
    constructor
    · simp [hinbox, hrest]
    · simp [hinbox, hresponses, HostEvent.isReset]
  · constructor <;> simp [hinbox, he]

/-- A run of one step and more goes on from the state that its first step answers, on any machine. -/
theorem run_of_step {M : Host.Core} {s u : M.State} (h : M.step s = .next u) (k : Nat) :
    M.run (k + 1) s = M.run k u := by
  rw [Host.Core.run, h]

/-- Settles O46, by induction on the steps: a step from a well-kept state answers, keeps it so, and takes one event. -/
theorem runsAnswerEveryCommand : Obligations.RunsAnswerEveryCommand := by
  intro k
  induction k with
  | zero =>
    intro s hinv
    have htakes := TakesEvents.refl s
    exact ⟨s, rfl, hinv, htakes.inbox, htakes.responses⟩
  | succ k ih =>
    intro s hinv
    obtain ⟨u, hu⟩ := stepAnswersUnderTheInvariants s hinv
    obtain ⟨t, hrun, hlast, hinbox, hresponses⟩ := ih u (stepKeepsTheInvariants s u hinv hu)
    have htakes := (step_takesEvents hu).trans (TakesEvents.mk hinbox hresponses)
    rw [Nat.add_comm 1 k] at htakes
    exact ⟨t, (run_of_step (M := core) hu k).trans hrun, hlast, htakes.inbox, htakes.responses⟩

end Sys2Proof.Machine
end
